-- ==== Sys2Proof/Word.lean ====
section
/-! DEFINITION. The one word type of the engine: every access is one byte wide (spec/20_memory.md R51). -/

namespace Sys2Proof

/-- A byte: 8 bits, an unsigned integer 0..255 (spec/00_scope.md R13). -/
abbrev Byte := BitVec 8

end Sys2Proof
end

