-- ==== Sys2Proof/Config.lean ====
section
/-! DEFINITION. Constants the source fixes (spec/00_scope.md R7), the parameters it leaves open (R8, R9) as the fields of
one structure, and the free values. -/

namespace Sys2Proof

/-- Packet classification, "a closed variant" of seven kinds (spec/10_state.md R28). The spec's names are kept but for
*initialize*, which is `init` here (the full word is a Lean command). -/
inductive Classification where
  /-- *none*: no data pending (R181) -/
  | none
  /-- *error*: malformed or overrun (R183, R184) -/
  | error
  /-- *ignore*: foreign address (R182) -/
  | ignore
  /-- *initialize* -/
  | init
  /-- *poll* -/
  | poll
  /-- *read*: unused by this node role (R186) -/
  | read
  /-- *transmit* -/
  | transmit
  deriving DecidableEq, Repr

/-- The parameters of R8 and R9, fixed for one machine. No step writes them (log 4). -/
structure Config where
  /-- end marker `ETX` (D2) -/
  etx : Byte
  /-- sync filler `SYN` (D3) -/
  syn : Byte
  /-- `MSG_CAP`, the largest number of bytes one parse may append (D5) -/
  msgCap : Nat
  /-- `IO_CAP`, the number of cells of each I/O buffer (D6) -/
  ioCap : Nat
  /-- `INIT_DELAY_OFFSET`, position of the delay in the Initialization payload (D7) -/
  initDelayOffset : Nat
  /-- `CLS_INITIAL`, the classification at parse entry (D10) -/
  clsInitial : Classification
  /-- `RX_SEES_OWN_TX`: the node receives its own transmission (D23) -/
  rxSeesOwnTx : Bool
  /-- `ROLE_TAG`, OPEN; no observable outcome depends on it (R9, D9) -/
  roleTag : Byte
  deriving DecidableEq, Repr

/-- Start marker (R7). -/
abbrev Config.stx : Byte := 0x02#8

/-- Escape marker (R7). -/
abbrev Config.dle : Byte := 0x10#8

/-- Added to the node address on the wire (R7, R74). -/
abbrev Config.addrOffset : Nat := 65

/-- Largest node address; larger values clamp to it (R7). -/
abbrev Config.addrMax : Nat := 64

/-- The wire delay is multiplied by this to give microseconds (R7). -/
abbrev Config.delayScale : Nat := 10

/-- `'I'` (R75; ASCII, PRESUMED by the spec's D4: log 5). -/
abbrev Config.letterI : Byte := 0x49#8

/-- `'P'` (R75, log 5). -/
abbrev Config.letterP : Byte := 0x50#8

/-- `'R'` (R75, log 5). -/
abbrev Config.letterR : Byte := 0x52#8

/-- `'T'` (R75, log 5). -/
abbrev Config.letterT : Byte := 0x54#8

/-- The values R8 takes; `ROLE_TAG` is open and 0x43 is a DESIGN CHOICE (log 26). -/
def Config.standard : Config where
  etx := 0x03#8
  syn := 0xFF#8
  msgCap := 260
  ioCap := 22
  initDelayOffset := 1
  clsInitial := .none
  rxSeesOwnTx := false
  roleTag := 0x43#8

/-- The admissible values of R8: four markers pairwise distinct, `IO_CAP` ≥ 1, `MSG_CAP` ≥ 6 + 2·`IO_CAP`,
`INIT_DELAY_OFFSET` in 0, 1, `CLS_INITIAL` *none* or *error*. -/
abbrev Config.Admissible (c : Config) : Prop :=
  (c.etx ≠ Config.stx ∧ c.etx ≠ Config.dle ∧ c.etx ≠ c.syn ∧ c.syn ≠ Config.stx ∧ c.syn ≠ Config.dle) ∧
  1 ≤ c.ioCap ∧ 6 + 2 * c.ioCap ≤ c.msgCap ∧ c.initDelayOffset ≤ 1 ∧
  (c.clsInitial = .none ∨ c.clsInitial = .error)

/-- A free value: the byte the n-th draw gives, where the spec says "any value (a draw per read)" (R56, U1 to U4).
No body: nothing can be proved of it (logs 8 and 9). -/
opaque Config.freeByte : Nat → BitVec 8

end Sys2Proof
end

