-- ==== Sys2Proof/Syntax.lean ====
section
/-! DEFINITION. The instructions: one constructor per row of spec/opcode_table.json; the control states that select a
decoding context; the forms an instruction is selected by. -/

namespace Sys2Proof

/-- Control state, the analogue of the program counter (spec/10_state.md R29). It selects the decoding context (R85). -/
inductive Phase where
  /-- IDLE: waiting for `Invoke` -/
  | idle
  /-- RD_BYTE: top of the read loop -/
  | rdByte
  /-- RD_ADDR: about to read the claimed address -/
  | rdAddr
  /-- RD_TYPE: about to read the type selector -/
  | rdType
  /-- RD_ESC: about to read the byte after an escape marker -/
  | rdEsc
  /-- FLUSH: in the flush routine -/
  | flush
  /-- TX: sending the assembled response -/
  | tx
  deriving DecidableEq, Repr

/-- The application-side call forms (spec/30_encoding.md R92; spec/43_configuration.md R170, R171). -/
inductive Call where
  /-- `Invoke()` -/
  | invoke
  /-- `setAddress(a)` -/
  | setAddress (a : Byte)
  /-- `configure(inCount, outCount, invIn, invOut)` -/
  | configure (ic oc : Nat) (ii io : Bool)
  deriving DecidableEq, Repr

/-- What selects an instruction: a received byte in a phase, a phase alone, a call form, or the bytes of a whole frame. -/
inductive Code where
  /-- a byte received in a phase (R85) -/
  | byte (p : Phase) (b : Byte)
  /-- no received byte: FL_EMPTY in FLUSH, TX in TX (R85) -/
  | noByte (p : Phase)
  /-- an application call -/
  | call (c : Call)
  /-- the wire bytes of one frame (R72, R86) -/
  | frame (bs : List Byte)
  deriving DecidableEq, Repr

/-- What a decoding consults beside its input: the parameters and the session register `address` (R85, R105). -/
structure Env where
  /-- the parameters -/
  cfg : Config
  /-- the session register `address` -/
  address : Nat
  deriving DecidableEq, Repr

/-- The 26 rows of spec/opcode_table.json. A frame's `a` is its address byte on the wire, its `payload` the
de-escaped payload bytes (for `frameI`: role tag, delay high, delay low, option bytes: R79). -/
inductive Instr where
  /-- STX, start marker (R104) -/
  | stx
  /-- ETX, end marker (R107) -/
  | etx
  /-- DLE, escape marker (R108) -/
  | dle
  /-- SYN, sync filler (R110) -/
  | syn
  /-- DATA, any byte that is no marker (R111) -/
  | data (b : Byte)
  /-- ADDR_MATCH, this node's address byte (R105) -/
  | addrMatch (b : Byte)
  /-- ADDR_FOREIGN, any other address byte (R105) -/
  | addrForeign (b : Byte)
  /-- TYPE_I (R106) -/
  | typeI
  /-- TYPE_P (R106) -/
  | typeP
  /-- TYPE_R (R106) -/
  | typeR
  /-- TYPE_T (R106) -/
  | typeT
  /-- TYPE_BAD, any other type byte (R106) -/
  | typeBad (b : Byte)
  /-- ESC_LIT, the byte after an escape marker (R109) -/
  | escLit (b : Byte)
  /-- FL_END, an end marker in the flush (R139) -/
  | flEnd
  /-- FL_SKIP, any other byte in the flush (R139) -/
  | flSkip (b : Byte)
  /-- FL_EMPTY, the flush finds no byte (R139) -/
  | flEmpty
  /-- TX, send one byte of the response (R156) -/
  | tx
  /-- INVOKE (R101) -/
  | invoke
  /-- SETADDRESS (R170) -/
  | setAddress (a : Byte)
  /-- CONFIGURE (R171) -/
  | configure (ic oc : Nat) (ii io : Bool)
  /-- FRAME_I, Initialization frame (R79, R132) -/
  | frameI (a : Byte) (payload : List Byte)
  /-- FRAME_P, Poll frame; a payload is ignored (R80, R134) -/
  | frameP (a : Byte) (payload : List Byte)
  /-- FRAME_R, Read/report frame (R81, R136) -/
  | frameR (a : Byte) (payload : List Byte)
  /-- FRAME_T, Transmit frame (R82, R135) -/
  | frameT (a : Byte) (payload : List Byte)
  /-- FRAME_BADTYPE, a frame with another type byte `t` (R87, R137) -/
  | frameBadtype (a t : Byte)
  /-- FRAME_FOREIGN, a frame for another node (R88, R138) -/
  | frameForeign (a : Byte)
  deriving DecidableEq, Repr

end Sys2Proof
end

