-- ==== Sys2Proof/WellFormed.lean ====
section
/-! DEFINITION. Which instructions the encoding tables admit under given parameters and address
(spec/30_encoding.md R85, R86, R84; spec/43_configuration.md R171). -/

namespace Sys2Proof

/-- A byte that is none of the four markers (R85, default row of RD_BYTE). -/
def isPlain (c : Config) (b : Byte) : Bool :=
  b != Config.stx && b != c.etx && b != Config.dle && b != c.syn

/-- A type selector other than the four letters (R87). -/
def isBadType (t : Byte) : Bool :=
  t != Config.letterI && t != Config.letterP && t != Config.letterR && t != Config.letterT

/-- The byte that stands for node `n` on the wire, compared as 8-bit values (R74). -/
def isAddrByte (n : Nat) (b : Byte) : Bool := b == BitVec.ofNat 8 (n + Config.addrOffset)

/-- Well-formed: every operand lies in the range its row of the table admits. -/
def wellFormed (e : Env) : Instr → Bool
  | .stx => true
  | .etx => true
  | .dle => true
  | .syn => true
  | .data b => isPlain e.cfg b
  | .addrMatch b => isAddrByte e.address b
  | .addrForeign b => !isAddrByte e.address b
  | .typeI => true
  | .typeP => true
  | .typeR => true
  | .typeT => true
  | .typeBad b => isBadType b
  | .escLit _ => true
  | .flEnd => true
  | .flSkip b => b != e.cfg.etx
  | .flEmpty => true
  | .tx => true
  | .invoke => true
  | .setAddress _ => true
  | .configure ic oc _ _ => decide (ic ≤ e.cfg.ioCap) && decide (oc ≤ e.cfg.ioCap)
  | .frameI a p => isAddrByte e.address a && decide (p.length ≤ e.cfg.msgCap)
  | .frameP a p => isAddrByte e.address a && decide (p.length ≤ e.cfg.msgCap)
  | .frameR a p => isAddrByte e.address a && decide (p.length ≤ e.cfg.msgCap)
  | .frameT a p => isAddrByte e.address a && decide (p.length ≤ e.cfg.msgCap)
  | .frameBadtype a t => isAddrByte e.address a && isBadType t
  | .frameForeign a => !isAddrByte e.address a

end Sys2Proof
end

