-- ==== Sys2Proof/Decode.lean ====
section
/-! DEFINITION. Decoding: the byte-to-action maps of spec/30_encoding.md R85, the frame map of R86, the escape codec of
R76 to R78; then the encoder, from the same tables; then the table-word reading the host asks for. -/

namespace Sys2Proof

/-- Why an input selects no instruction. Each is safe: the step refuses. -/
inductive DecodeError where
  /-- a byte was offered in IDLE or TX, where "the engine reads no bytes" (R85) -/
  | readsNoByte
  /-- no byte was offered in a phase that reads one (R85: only FLUSH and TX have a row without a byte) -/
  | needsByte
  /-- the bytes do not begin with `SYN SYN STX` (R72) -/
  | notAFrame
  /-- the bytes end before the frame does (R84) -/
  | incompleteFrame
  /-- an unescaped `STX` in a payload: header processing restarts (R104), so this is no frame of R72 -/
  | restartInPayload
  /-- more than `MSG_CAP` payload bytes (R84) -/
  | payloadTooLong
  /-- bytes left over after the frame -/
  | trailingBytes
  deriving DecidableEq, Repr

/-- The byte `address + 65` (R74). -/
def addrByte (n : Nat) : Byte := BitVec.ofNat 8 (n + Config.addrOffset)

/-- Context RD_BYTE (R85). -/
def decodeRdByte (c : Config) (b : Byte) : Instr :=
  if b = Config.stx then .stx
  else if b = c.etx then .etx
  else if b = Config.dle then .dle
  else if b = c.syn then .syn
  else .data b

/-- Context RD_ADDR (R85, R105). -/
def decodeRdAddr (address : Nat) (b : Byte) : Instr :=
  if b = addrByte address then .addrMatch b else .addrForeign b

/-- Context RD_TYPE (R85, R75). -/
def decodeRdType (b : Byte) : Instr :=
  if b = Config.letterI then .typeI
  else if b = Config.letterP then .typeP
  else if b = Config.letterR then .typeR
  else if b = Config.letterT then .typeT
  else .typeBad b

/-- Context FLUSH (R85, R139). -/
def decodeFlush (c : Config) (b : Byte) : Instr :=
  if b = c.etx then .flEnd else .flSkip b

/-- How a received byte is decoded "depends on `phase` alone" (R85). -/
def decodeByte (e : Env) : Phase → Byte → Except DecodeError Instr
  | .idle, _ => .error .readsNoByte
  | .rdByte, b => .ok (decodeRdByte e.cfg b)
  | .rdAddr, b => .ok (decodeRdAddr e.address b)
  | .rdType, b => .ok (decodeRdType b)
  | .rdEsc, b => .ok (.escLit b)
  | .flush, b => .ok (decodeFlush e.cfg b)
  | .tx, _ => .error .readsNoByte

/-- The rows that no byte selects (R85). -/
def decodeNoByte : Phase → Except DecodeError Instr
  | .flush => .ok .flEmpty
  | .tx => .ok .tx
  | .idle => .error .needsByte
  | .rdByte => .error .needsByte
  | .rdAddr => .error .needsByte
  | .rdType => .error .needsByte
  | .rdEsc => .error .needsByte

/-- The call rows (R92). -/
def decodeCall : Call → Instr
  | .invoke => .invoke
  | .setAddress a => .setAddress a
  | .configure ic oc ii io => .configure ic oc ii io

/-- De-escape a payload through its `ETX` (R77, R78, R84): the payload, and the bytes after the end marker. The flag says
that the byte before was an escape marker. -/
def unescape (c : Config) : Bool → List Byte → Except DecodeError (List Byte × List Byte)
  | _, [] => .error .incompleteFrame
  | true, v :: r =>
    match unescape c false r with
    | .ok (p, q) => .ok (v :: p, q)
    | .error x => .error x
  | false, b :: r =>
    if b = c.etx then .ok ([], r)
    else if b = Config.stx then .error .restartInPayload
    else if b = Config.dle then unescape c true r
    else
      match unescape c false r with
      | .ok (p, q) => .ok (b :: p, q)
      | .error x => .error x

/-- Finish a frame that has a payload: de-escape it and hand it to its constructor. -/
def decodeBody (c : Config) (k : List Byte → Instr) (bs : List Byte) : Except DecodeError (Instr × List Byte) :=
  match unescape c false bs with
  | .ok (p, rest) => if p.length ≤ c.msgCap then .ok (k p, rest) else .error .payloadTooLong
  | .error x => .error x

/-- The frame-level map (R72, R86): the frame at the head of a byte stream, and the bytes after what it consumes. A
foreign frame is consumed through its address byte, a bad-type frame through its type byte (R116). -/
def decodeFrame (e : Env) : List Byte → Except DecodeError (Instr × List Byte)
  | f1 :: f2 :: m :: a :: r =>
    if f1 = e.cfg.syn ∧ f2 = e.cfg.syn ∧ m = Config.stx then
      if a = addrByte e.address then
        match r with
        | [] => .error .incompleteFrame
        | t :: r' =>
          if t = Config.letterI then decodeBody e.cfg (.frameI a) r'
          else if t = Config.letterP then decodeBody e.cfg (.frameP a) r'
          else if t = Config.letterR then decodeBody e.cfg (.frameR a) r'
          else if t = Config.letterT then decodeBody e.cfg (.frameT a) r'
          else .ok (.frameBadtype a t, r')
      else .ok (.frameForeign a, r)
    else .error .notAFrame
  | _ => .error .incompleteFrame

/-- The decoder: total; what selects no instruction is rejected by name. -/
def decode (e : Env) : Code → Except DecodeError Instr
  | .byte p b => decodeByte e p b
  | .noByte p => decodeNoByte p
  | .call c => .ok (decodeCall c)
  | .frame bs =>
    match decodeFrame e bs with
    | .ok (i, []) => .ok i
    | .ok (_, _ :: _) => .error .trailingBytes
    | .error x => .error x

/-- A payload byte that the sender escapes: `STX`, `ETX` or `DLE`, never `SYN` (R76, R78). -/
def needsEscape (c : Config) (v : Byte) : Bool := v == Config.stx || v == c.etx || v == Config.dle

/-- `enc` of R76 over a payload. -/
def escape (c : Config) : List Byte → List Byte
  | [] => []
  | v :: r => if needsEscape c v then Config.dle :: v :: escape c r else v :: escape c r

/-- The five header bytes of a frame: `SYN SYN STX <addr> <type>` (R72, R151). -/
def frameHeader (c : Config) (a t : Byte) : List Byte := [c.syn, c.syn, Config.stx, a, t]

/-- A whole frame with a payload: header, escaped payload, `ETX` (R72, R79 to R82). -/
def frameBytes (c : Config) (a t : Byte) (payload : List Byte) : List Byte :=
  frameHeader c a t ++ escape c payload ++ [c.etx]

/-- The encoder, from the tables of R72, R85 and R92. -/
def encode (c : Config) : Instr → Code
  | .stx => .byte .rdByte Config.stx
  | .etx => .byte .rdByte c.etx
  | .dle => .byte .rdByte Config.dle
  | .syn => .byte .rdByte c.syn
  | .data b => .byte .rdByte b
  | .addrMatch b => .byte .rdAddr b
  | .addrForeign b => .byte .rdAddr b
  | .typeI => .byte .rdType Config.letterI
  | .typeP => .byte .rdType Config.letterP
  | .typeR => .byte .rdType Config.letterR
  | .typeT => .byte .rdType Config.letterT
  | .typeBad b => .byte .rdType b
  | .escLit b => .byte .rdEsc b
  | .flEnd => .byte .flush c.etx
  | .flSkip b => .byte .flush b
  | .flEmpty => .noByte .flush
  | .tx => .noByte .tx
  | .invoke => .call .invoke
  | .setAddress a => .call (.setAddress a)
  | .configure ic oc ii io => .call (.configure ic oc ii io)
  | .frameI a p => .frame (frameBytes c a Config.letterI p)
  | .frameP a p => .frame (frameBytes c a Config.letterP p)
  | .frameR a p => .frame (frameBytes c a Config.letterR p)
  | .frameT a p => .frame (frameBytes c a Config.letterT p)
  | .frameBadtype a t => .frame (frameHeader c a t)
  | .frameForeign a => .frame [c.syn, c.syn, Config.stx, a]

/-- The phase in which a bare table word is read (DESIGN CHOICE, log 11): a table row gives a byte without its context,
and one byte value stands in several contexts. The four type letters are read in RD_TYPE, every other byte in RD_BYTE. -/
def tablePhase (b : Byte) : Phase := if isBadType b then .rdByte else .rdType

/-- The byte of a table word: the bits 7..0. Later bytes are later bytes of the stream, each an instruction of its own. -/
def tableByte (w : Nat) : Byte := BitVec.ofNat 8 w

/-- The instruction the decoder reads from a table word of `nbits` bits, under the standard parameters and address 0.
A row without bits (`nbits` = 0) is no received byte and selects nothing here. -/
def decodeTableWord (nbits w : Nat) : Option Instr :=
  if nbits = 0 then none
  else
    match decodeByte ⟨Config.standard, 0⟩ (tablePhase (tableByte w)) (tableByte w) with
    | .ok i => some i
    | .error _ => none

end Sys2Proof
end

