-- ==== Sys2Proof/Machine/Memory.lean ====
section
/-! DEFINITION. The engine's byte buffers as plain data (spec/20_memory.md R50, R51): a list of (index, byte) cells in one
canonical form, indices strictly rising, no cell equal to what an unlisted one reads as (log 25). -/

namespace Sys2Proof.Machine

/-- A buffer: its listed cells, indices strictly rising. -/
abbrev Memory := List Host.Cell

/-- The listed byte at an index, if any. -/
def Memory.find : Memory → Nat → Option (BitVec 8)
  | [], _ => none
  | (k, v) :: r, a => if k = a then some v else Memory.find r a

/-- List a byte at an index, keeping the order. -/
def Memory.insert : Memory → Nat → BitVec 8 → Memory
  | [], a, b => [(a, b)]
  | (k, v) :: r, a, b =>
    if a < k then (a, b) :: (k, v) :: r
    else if a = k then (a, b) :: r
    else (k, v) :: Memory.insert r a b

/-- Unlist an index. -/
def Memory.erase (m : Memory) (a : Nat) : Memory := m.filter fun c => c.1 != a

/-- Write one byte; `unlisted` is what an unlisted cell reads as (`none`: unspecified). Writing that value removes the cell. -/
def Memory.write (unlisted : Option (BitVec 8)) (m : Memory) (a : Nat) (b : BitVec 8) : Memory :=
  if unlisted = some b then m.erase a else m.insert a b

/-- Write bytes at `a`, `a+1`, … in that order. -/
def Memory.writeList (unlisted : Option (BitVec 8)) : Memory → Nat → List (BitVec 8) → Memory
  | m, _, [] => m
  | m, a, b :: bs => Memory.writeList unlisted (Memory.write unlisted m a b) (a + 1) bs

/-- Forget every cell above an index (R56: it is unspecified from then on). -/
def Memory.forgetAbove (m : Memory) (n : Nat) : Memory := m.filter fun c => decide (c.1 ≤ n)

/-- Indices strictly rise, from a lower bound on. -/
def Memory.risingFrom : Nat → Memory → Bool
  | _, [] => true
  | n, (k, _) :: r => decide (n ≤ k) && Memory.risingFrom (k + 1) r

/-- The canonical form of a buffer of `cells` cells: indices strictly rising and inside the buffer, and no listed byte
equal to what an unlisted cell reads as. -/
def Memory.wf (cells : Nat) (unlisted : Option (BitVec 8)) (m : Memory) : Bool :=
  Memory.risingFrom 0 m && m.all fun c => decide (c.1 < cells) && decide (unlisted ≠ some c.2)

end Sys2Proof.Machine
end

