-- ==== Sys2Proof/Machine/State.lean ====
section
/-! DEFINITION. The state of the engine and its surroundings (spec/10_state.md R20), as plain data; the reset state (R40);
the reasons a step can stop. -/

namespace Sys2Proof.Machine

/-- An event of the transmit log (R34). -/
inductive TxEvent where
  /-- `Tx(b)`: a byte written to the transport -/
  | tx (b : Byte)
  /-- `Pace(n)`: a suspension of `n` microseconds -/
  | pace (n : Nat)
  deriving DecidableEq, Repr

/-- A move of one of the agents of R12: who acts next (log 2). -/
inductive Move where
  /-- the engine takes its next step -/
  | engine
  /-- the transport appends a byte to `rxq` (R33) -/
  | deliver (b : Byte)
  /-- the application makes a call (R12, R174) -/
  | call (c : Call)
  /-- the application calls `Invoke` and the engine's parse is taken at the frame grain (log 12) -/
  | invokeFrame
  /-- the engine is reset, at whatever moment (R211) -/
  | reset
  deriving DecidableEq, Repr

/-- The three byte buffers inside the engine (R50). -/
inductive Buffer where
  /-- the message buffer `msg` -/
  | message
  /-- `inputBits` -/
  | input
  /-- `outputBits` -/
  | output
  deriving DecidableEq, Repr

/-- Why a step faults. "No access can fault" (R52): raised only in states no run from reset reaches. -/
inductive Fault where
  /-- an access to an index outside a buffer; raised by Terminate, the reactions, Build and TX (log 16). Safe. -/
  | outOfBounds (b : Buffer) (index : Nat)
  deriving DecidableEq, Repr

/-- Why a step is refused. Each is the spec's own refusal and safe, but for the first. -/
inductive Refusal where
  /-- no meaning written for the instruction yet; raised by exec's arms only. Safe. -/
  | notModelled (mnemonic : String)
  /-- `Invoke` before `setAddress` and `configure` (R175); raised by INVOKE and the frame rows. Safe. -/
  | notConfigured
  /-- a call while an invocation is in progress, not queued (R174, R216; log 27); raised by the call and frame rows. Safe. -/
  | callDuringInvocation
  /-- `configure` with a count above `IO_CAP` (R171); raised by CONFIGURE. Safe. -/
  | countTooLarge
  /-- parameters outside R8 (D31); raised by step. Safe. -/
  | badConfiguration
  /-- an input that selects no instruction; raised by step, in no state (every fetch decodes). Safe. -/
  | undecodable (e : DecodeError)
  deriving DecidableEq, Repr

/-- The state: R20's table, then the model's own fields. -/
structure State where
  /-- control state (R29) -/
  phase : Phase
  /-- classification (R28) -/
  cls : Classification
  /-- payload-accumulation mode (R27) -/
  inData : Bool
  /-- bytes appended in the current parse (R26) -/
  idx : Nat
  /-- message buffer (R25); an unlisted cell is unspecified (R56) -/
  msg : Memory
  /-- session register (R21) -/
  address : Nat
  /-- `address` has been written since reset (R175) -/
  addressWritten : Bool
  /-- session register (R22) -/
  inCount : Nat
  /-- session register (R22) -/
  outCount : Nat
  /-- session flag (R23) -/
  invIn : Bool
  /-- session flag (R23) -/
  invOut : Bool
  /-- `configure` has been called since reset (R175) -/
  countsWritten : Bool
  /-- pacing delay in microseconds (R24) -/
  txDelay : Nat
  /-- input buffer (R30); an unlisted cell reads 0x00 -/
  inputBits : Memory
  /-- output buffer (R31); an unlisted cell reads 0x00 -/
  outputBits : Memory
  /-- length of the assembled response (R32) -/
  txLen : Nat
  /-- bytes of it already written (R32) -/
  txPos : Nat
  /-- bytes received and not yet read, oldest first (R33) -/
  rxq : List Byte
  /-- events the engine has produced, oldest first (R34) -/
  txlog : List TxEvent
  /-- one entry per `ApplyOutputs`, oldest first (R35) -/
  applylog : List (List Byte)
  /-- what the last `setAddress` returned, none before the first (R170, R38; log 14) -/
  returned : Option Nat
  /-- MODEL: the parameters (R8, R9), which no step writes (log 4) -/
  cfg : Config
  /-- MODEL: moves still to come; with none left the engine moves (log 2) -/
  agenda : List Move
  /-- MODEL: bytes the application will answer `SampleInputs` with (R11; log 9) -/
  sampleq : List Byte
  /-- MODEL: the lengths `SampleInputs` was called with (R134; log 15) -/
  samplelog : List Nat
  /-- MODEL: free values drawn so far (R56; logs 8 and 9) -/
  draws : Nat
  deriving DecidableEq, Repr

/-- The outcome of a meaning or a step. -/
abbrev Result := Host.Outcome State Fault Refusal

/-- The state right after reset (R40): IDLE, nothing pending, the five configuration registers unwritten (they hold zero
and their written flags are false: log 6), `msg` unspecified, both I/O buffers zero, no pacing. -/
def State.reset : State where
  phase := .idle
  cls := .none
  inData := false
  idx := 0
  msg := []
  address := 0
  addressWritten := false
  inCount := 0
  outCount := 0
  invIn := false
  invOut := false
  countsWritten := false
  txDelay := 0
  inputBits := []
  outputBits := []
  txLen := 0
  txPos := 0
  rxq := []
  txlog := []
  applylog := []
  returned := none
  cfg := Config.standard
  agenda := []
  sampleq := []
  samplelog := []
  draws := 0

end Sys2Proof.Machine
end

