-- ==== Sys2Proof/Machine/Operands.lean ====
section
/-! DEFINITION. Every operand form of the engine: the delay (spec/30_encoding.md R83), the address clamp
(spec/43_configuration.md R170), complement (R13), the reads of the three buffers (R56, R58), the answer of the
input sampler (R11). -/

namespace Sys2Proof.Machine

/-- What a decoding in state `s` consults (R85, R105). -/
def State.env (s : State) : Env := ⟨s.cfg, s.address⟩

/-- The stored delay in microseconds: `(hi·256 + lo)·10`, high-order byte first, not truncated (R54, R83, R91). -/
def delayOf (hi lo : Byte) : Nat := (hi.toNat * 256 + lo.toNat) * Config.delayScale

/-- The clamp of `setAddress`: values above 64 become 64 (R170). -/
def clampAddress (a : Byte) : Nat := if a.toNat > Config.addrMax then Config.addrMax else a.toNat

/-- `~v`, all eight bits (R13, R91). -/
def complement (v : Byte) : Byte := ~~~v

/-- Invert a buffer's bytes when the flag is set (R134, R135). -/
def invertIf (f : Bool) (bs : List Byte) : List Byte := if f then bs.map complement else bs

/-- A read of `msg[i]`: the listed byte, or, of a cell that is unspecified (R56), a free value of its own (log 8). -/
def msgByte (s : State) (i : Nat) : Byte := (s.msg.find i).getD (Config.freeByte (s.draws + i))

/-- `msg[0 .. n-1]` (R135). -/
def msgBytes (s : State) (n : Nat) : List Byte := (List.range n).map (msgByte s)

/-- Count the free values a reaction may have read from `msg`, one index per cell, so that the next reaction's are new
ones (R56 "a draw per read"; log 8). -/
def drewFromMsg (s : State) : State := { s with draws := s.draws + (s.cfg.msgCap + 1) }

/-- A read of an I/O buffer cell; an unlisted cell reads 0x00 (R30, R31, R40). -/
def ioByte (m : Memory) (i : Nat) : Byte := (m.find i).getD 0#8

/-- The first `n` bytes of an I/O buffer. -/
def ioBytes (m : Memory) (n : Nat) : List Byte := (List.range n).map (ioByte m)

/-- Write bytes into an I/O buffer from index 0 on. -/
def ioStore (m : Memory) (bs : List Byte) : Memory := Memory.writeList (some 0#8) m 0 bs

/-- Write bytes into `msg` from index `a` on. -/
def msgStore (m : Memory) (a : Nat) (bs : List Byte) : Memory := Memory.writeList none m a bs

/-- The application's answer to `SampleInputs(n)`: exactly `n` bytes, "the values are outside the engine's control"
(R11): the bytes of `sampleq` first, free values for the rest (log 9). -/
def sampleAnswer (s : State) (n : Nat) : List Byte :=
  s.sampleq.take n ++ (List.range (n - s.sampleq.length)).map fun k => Config.freeByte (s.draws + k)

/-- The state after `SampleInputs(n)` has answered. -/
def afterSample (s : State) (n : Nat) : State :=
  { s with
    sampleq := s.sampleq.drop n
    samplelog := s.samplelog ++ [n]
    draws := s.draws + (n - s.sampleq.length) }

end Sys2Proof.Machine
end

