-- ==== Sys2Proof/Machine/Flags.lean ====
section
/-! DEFINITION. The engine's only flags: `inData` (spec/10_state.md R27) and the classification `cls` (R28). "The engine has
no other condition flag: no carry, zero, sign or overflow exists" (R27). -/

namespace Sys2Proof.Machine

/-- The numeric code of a classification, 3 bits (R28, D15); nothing outside the engine sees it. -/
def classCode : Classification → BitVec 3
  | .none => 0#3
  | .error => 1#3
  | .ignore => 2#3
  | .init => 3#3
  | .poll => 4#3
  | .read => 5#3
  | .transmit => 6#3

/-- `inData <- 1`, at a start marker (R27, R104). -/
def enterDataMode (s : State) : State := { s with inData := true }

/-- `classify C`: `cls <- C` (R13, R28). -/
def classify (c : Classification) (s : State) : State := { s with cls := c }

end Sys2Proof.Machine
end

