-- ==== Sys2Proof/Machine/Ops.lean ====
section
/-! DEFINITION. The named operations the meanings share: the primitives of spec/00_scope.md R11, the dispatcher's reactions
(spec/41_dispatcher.md), the encoder's Build (spec/42_poll_response_encoder.md), the parser's LoopEntry, Append and Terminate
(spec/40_frame_parser.md), taking an error and returning from the flush (spec/60_exceptions.md), the engine reset. -/

namespace Sys2Proof.Machine

/-! ## Primitives (R11) -/

/-- `RxAvail()`: the number of bytes held in `rxq`; no side effect (R11, R58, D27). -/
def rxAvail (s : State) : Nat := s.rxq.length

/-- `RxRead()`: remove and return the oldest byte; nothing to return when `rxq` is empty (R11, R58). -/
def rxRead (s : State) : Option (Byte × State) :=
  match s.rxq with
  | [] => none
  | b :: r => some (b, { s with rxq := r })

/-- The transport appends a byte to the tail of `rxq` (R33). -/
def deliver (b : Byte) (s : State) : State := { s with rxq := s.rxq ++ [b] }

/-- `TxWrite(b)`: the event `Tx(b)`; with `RX_SEES_OWN_TX` the byte also arrives in `rxq` (R11, R64). -/
def txWrite (b : Byte) (s : State) : State :=
  { s with
    txlog := s.txlog ++ [.tx b]
    rxq := if s.cfg.rxSeesOwnTx then s.rxq ++ [b] else s.rxq }

/-- `Pace(txDelay)` when the delay is not zero (R157; an event, no clock: log 19). -/
def pace (s : State) : State :=
  if s.txDelay = 0 then s else { s with txlog := s.txlog ++ [.pace s.txDelay] }

/-- `ApplyOutputs(bytes)`: the event `Apply(bytes)` (R11, R35). -/
def applyOutputs (bs : List Byte) (s : State) : State := { s with applylog := s.applylog ++ [bs] }

/-! ## The flush: entry and return (R189, R190) -/

/-- Entry to the flush routine: "Nothing is saved, because nothing needs restoring" (R136 to R138, R189). -/
def enterFlush (s : State) : State := { s with phase := .flush }

/-- Return: the flush ends with `phase <- IDLE`, which ends the invocation (R139, R190). -/
def returnFromFlush (s : State) : State := { s with phase := .idle }

/-! ## Build (R151 to R155) -/

/-- The response frame for the given input bytes (R151, R152, R154). -/
def responseBytes (s : State) (bs : List Byte) : List Byte :=
  frameBytes s.cfg (addrByte s.address) Config.letterR bs

/-- The response assembled in `msg`, the input bytes it took cleared, `txLen` and `txPos` set (R153, R155). -/
def assemble (frame : List Byte) (s : State) : State :=
  { s with
    msg := msgStore s.msg 0 frame
    inputBits := ioStore s.inputBits (List.replicate s.inCount 0#8)
    txLen := frame.length
    txPos := 0
    phase := .tx }

/-- Build (R151 to R155); the response always fits under the parameters of R8 (R155). -/
def build (s : State) : Result :=
  if (responseBytes s (ioBytes s.inputBits s.inCount)).length ≤ s.cfg.msgCap + 1 then
    .next (assemble (responseBytes s (ioBytes s.inputBits s.inCount)) s)
  else .fault (.outOfBounds .message (responseBytes s (ioBytes s.inputBits s.inCount)).length)

/-! ## Reactions (R131 to R138) -/

/-- RoleTagHook: the role tag is compared and "Both branches do nothing" (R133). -/
def roleTagHook (s : State) : State := if msgByte s 0 = s.cfg.roleTag then s else s

/-- Reaction *none* (R131). -/
def reactNone (s : State) : Result := .next { s with phase := .idle }

/-- Reaction *initialize* (R132): `txDelay` from the two bytes at the fixed position, whatever `idx` is. -/
def reactInit (s : State) : Result :=
  if s.cfg.initDelayOffset + 1 ≤ s.cfg.msgCap then
    .next { roleTagHook (drewFromMsg s) with
      txDelay := delayOf (msgByte s s.cfg.initDelayOffset) (msgByte s (s.cfg.initDelayOffset + 1))
      phase := .idle }
  else .fault (.outOfBounds .message (s.cfg.initDelayOffset + 1))

/-- Sample the inputs and invert them if asked (R134). -/
def sampleInputs (s : State) : State :=
  { afterSample s s.inCount with
    inputBits := ioStore s.inputBits (invertIf s.invIn (sampleAnswer s s.inCount)) }

/-- Reaction *poll* (R134): sample, invert, build; transmission follows in TX. -/
def reactPoll (s : State) : Result :=
  if s.inCount ≤ s.cfg.ioCap then build (sampleInputs s)
  else .fault (.outOfBounds .input s.inCount)

/-- Copy the first `outCount` payload bytes to the outputs, inverted if asked (R135). -/
def copyOutputs (s : State) : State :=
  { drewFromMsg s with outputBits := ioStore s.outputBits (invertIf s.invOut (msgBytes s s.outCount)) }

/-- Reaction *transmit* (R135): copy, invert, apply. -/
def reactTransmit (s : State) : Result :=
  if s.outCount ≤ s.cfg.ioCap then
    if s.outCount ≤ s.cfg.msgCap + 1 then
      .next { applyOutputs (ioBytes (copyOutputs s).outputBits s.outCount) (copyOutputs s) with phase := .idle }
    else .fault (.outOfBounds .message s.outCount)
  else .fault (.outOfBounds .output s.outCount)

/-- Reaction *read*: flush (R136). -/
def reactRead (s : State) : Result := .next (enterFlush s)

/-- Reaction *error*: flush (R137). -/
def reactError (s : State) : Result := .next (enterFlush s)

/-- Reaction *ignore*: flush (R138). -/
def reactIgnore (s : State) : Result := .next (enterFlush s)

/-- `React(cls)`: the dispatcher's choice (R130). -/
def react (s : State) : Result :=
  match s.cls with
  | .none => reactNone s
  | .init => reactInit s
  | .poll => reactPoll s
  | .transmit => reactTransmit s
  | .read => reactRead s
  | .error => reactError s
  | .ignore => reactIgnore s

/-! ## The parser's subroutines (R102, R112, R113) -/

/-- LoopEntry (R102). -/
def loopEntry (s : State) : State :=
  { s with idx := 0, inData := false, cls := s.cfg.clsInitial, phase := .rdByte }

/-- The sentinel `msg[idx] <- 0x00`; the cells above it are unspecified from here on (R113, R56). -/
def storeSentinel (s : State) : State :=
  { s with msg := (Memory.write none s.msg s.idx 0#8).forgetAbove s.idx }

/-- Terminate (R113): the sentinel, then the reaction, in the same step. -/
def terminate (s : State) : Result :=
  if s.idx ≤ s.cfg.msgCap then react (storeSentinel s)
  else .fault (.outOfBounds .message s.idx)

/-- Taking an error, the engine's analogue of an exception: "`classify error` or `classify ignore` followed by
`Terminate`" (R13, R180). The reaction to either is the flush. -/
def raiseClass (c : Classification) (s : State) : Result := terminate (classify c s)

/-- `Append(b)` and its overrun guard (R112): the byte that does not fit is dropped and the parse ends in *error*. -/
def append (b : Byte) (s : State) : Result :=
  if s.idx < s.cfg.msgCap then .next { s with msg := Memory.write none s.msg s.idx b, idx := s.idx + 1 }
  else raiseClass .error s

/-! ## Invocation (R174, R175) -/

/-- What an invocation asks before it starts: the engine is idle (R174) and configured (R175). -/
def invocation (s : State) (k : State → Result) : Result :=
  if s.phase = .idle then
    if s.addressWritten && s.countsWritten then k s
    else .refused .notConfigured
  else .refused .callDuringInvocation

/-! ## The frame grain (R86; log 12) -/

/-- One parse over a whole frame of this node with a payload: LoopEntry, data mode, the classification, the payload
appended, Terminate. A payload above `MSG_CAP` overruns: its first byte too many is dropped, and what follows it on the wire
is still in `rxq` (R112, R116). -/
def parseFrame (c : Classification) (payload : List Byte) (s : State) : Result :=
  if payload.length ≤ s.cfg.msgCap then
    terminate { classify c (enterDataMode (loopEntry s)) with
      msg := msgStore s.msg 0 payload
      idx := payload.length }
  else
    raiseClass .error { enterDataMode (loopEntry s) with
      msg := msgStore s.msg 0 (payload.take s.cfg.msgCap)
      idx := s.cfg.msgCap
      rxq := escape s.cfg (payload.drop (s.cfg.msgCap + 1)) ++ [s.cfg.etx] ++ s.rxq }

/-- One parse over a frame that ends in its header: LoopEntry, data mode, then the error is taken (R105, R106). -/
def parseHeader (c : Classification) (s : State) : Result :=
  raiseClass c (enterDataMode (loopEntry s))

/-! ## Reset at run time (R210, R211) -/

/-- An engine reset at any moment: every register of the engine at its reset value; what belongs to the surroundings stays
(R211: bytes in `rxq` are not removed, "a partly sent response stays partly sent in `txlog`"; log 17). -/
def engineReset (s : State) : State :=
  { State.reset with
    rxq := s.rxq
    txlog := s.txlog
    applylog := s.applylog
    cfg := s.cfg
    agenda := s.agenda
    sampleq := s.sampleq
    samplelog := s.samplelog
    draws := s.draws }

end Sys2Proof.Machine
end

