-- ==== Sys2Proof/Machine/Calls.lean ====
section
/-! DEFINITION. Meanings of the application calls (spec/40_frame_parser.md R101; spec/43_configuration.md R170, R171, R174). -/

namespace Sys2Proof.Machine

/-- INVOKE (R101): with nothing received the invocation is over at once with *none*; otherwise the parse starts (R102).
The byte is not yet consumed. -/
def execInvoke (s : State) : Result :=
  invocation s fun s =>
    if rxAvail s = 0 then .next { classify .none s with phase := .idle }
    else .next (loopEntry s)

/-- SETADDRESS (R170): store and return the clamped value. -/
def execSetAddress (a : Byte) (s : State) : Result :=
  if s.phase = .idle then
    .next { s with address := clampAddress a, addressWritten := true, returned := some (clampAddress a) }
  else .refused .callDuringInvocation

/-- CONFIGURE (R171): the counts are bounded by `IO_CAP`; the buffers keep their contents. -/
def execConfigure (ic oc : Nat) (ii io : Bool) (s : State) : Result :=
  if s.phase = .idle then
    if ic ≤ s.cfg.ioCap ∧ oc ≤ s.cfg.ioCap then
      .next { s with inCount := ic, outCount := oc, invIn := ii, invOut := io, countsWritten := true }
    else .refused .countTooLarge
  else .refused .callDuringInvocation

end Sys2Proof.Machine
end

