-- ==== Sys2Proof/Machine/Encoder.lean ====
section
/-! DEFINITION. The meaning of the send step (spec/42_poll_response_encoder.md R156, R157). -/

namespace Sys2Proof.Machine

/-- The byte is written and paced, `txPos` has moved on: the response goes on, or the invocation is over (R156). -/
def advanceTx (s : State) : State :=
  if s.txPos = s.txLen then { s with phase := .idle } else { s with phase := .tx }

/-- TX (R156): write `msg[txPos]`, advance, pace if the delay is not zero. -/
def execTx (s : State) : Result :=
  if s.txPos ≤ s.cfg.msgCap then
    .next (advanceTx (pace { txWrite (msgByte s s.txPos) s with txPos := s.txPos + 1 }))
  else .fault (.outOfBounds .message s.txPos)

end Sys2Proof.Machine
end

