-- ==== Sys2Proof/Machine/Flush.lean ====
section
/-! DEFINITION. Meanings of the flush routine's rows (spec/41_dispatcher.md R139). Nothing is stored; `msg`, `idx`, `cls` keep
their values. -/

namespace Sys2Proof.Machine

/-- FL_END: an end marker is discarded and the flush ends (R139, R190). -/
def execFlEnd (s : State) : Result := .next (returnFromFlush s)

/-- FL_SKIP: the byte is discarded and the flush goes on (R139). -/
def execFlSkip (_b : Byte) (s : State) : Result := .next (enterFlush s)

/-- FL_EMPTY: "the transport reports no more available bytes" and the flush ends (R139). -/
def execFlEmpty (s : State) : Result := .next (returnFromFlush s)

end Sys2Proof.Machine
end

