-- ==== Sys2Proof/Machine/Frames.lean ====
section
/-! DEFINITION. Meanings of the frame rows (spec/30_encoding.md R86): one invocation of the engine over one whole frame,
taken after the fetch has removed the frame's bytes from `rxq` (logs 12 and 13). The address byte was matched by the decoder. -/

namespace Sys2Proof.Machine

/-- FRAME_I (R79, R132): the delay is set from the payload. -/
def execFrameI (_a : Byte) (payload : List Byte) (s : State) : Result :=
  invocation s (parseFrame .init payload)

/-- FRAME_P (R80, R134): sampled, and the response built; any payload is ignored. -/
def execFrameP (_a : Byte) (payload : List Byte) (s : State) : Result :=
  invocation s (parseFrame .poll payload)

/-- FRAME_R (R81, R136): flushed. -/
def execFrameR (_a : Byte) (payload : List Byte) (s : State) : Result :=
  invocation s (parseFrame .read payload)

/-- FRAME_T (R82, R135): the outputs are copied and applied. -/
def execFrameT (_a : Byte) (payload : List Byte) (s : State) : Result :=
  invocation s (parseFrame .transmit payload)

/-- FRAME_BADTYPE (R87, R137): *error* at the type byte, then the flush. -/
def execFrameBadtype (_a _t : Byte) (s : State) : Result :=
  invocation s (parseHeader .error)

/-- FRAME_FOREIGN (R88, R138): *ignore* at the address byte, then the flush. -/
def execFrameForeign (_a : Byte) (s : State) : Result :=
  invocation s (parseHeader .ignore)

end Sys2Proof.Machine
end

