-- ==== Sys2Proof/Machine/Parser.lean ====
section
/-! DEFINITION. Meanings of the Frame Parser's rows (spec/40_frame_parser.md). Each acts after the fetch has removed the byte
from `rxq` (R103; log 13). -/

namespace Sys2Proof.Machine

/-- STX (R104): data mode on, the address byte is next; `cls` and `idx` stay. -/
def execStx (s : State) : Result := .next { enterDataMode s with phase := .rdAddr }

/-- ETX (R107): the parse ends, `cls` keeps the value it has. -/
def execEtx (s : State) : Result := terminate s

/-- DLE (R108): the next byte is taken verbatim. -/
def execDle (s : State) : Result := .next { s with phase := .rdEsc }

/-- SYN (R110): appended in data mode, dropped otherwise. -/
def execSyn (s : State) : Result :=
  if s.inData then append s.cfg.syn { s with phase := .rdByte } else .next { s with phase := .rdByte }

/-- DATA (R111): appended in either mode. -/
def execData (b : Byte) (s : State) : Result := append b { s with phase := .rdByte }

/-- ADDR_MATCH (R105): the type byte is next. The byte itself is not kept. -/
def execAddrMatch (_b : Byte) (s : State) : Result := .next { s with phase := .rdType }

/-- ADDR_FOREIGN (R105): *ignore*; "the foreign address byte is not kept" (R182). -/
def execAddrForeign (_b : Byte) (s : State) : Result := raiseClass .ignore s

/-- TYPE_I (R106). -/
def execTypeI (s : State) : Result := .next { classify .init s with phase := .rdByte }

/-- TYPE_P (R106). -/
def execTypeP (s : State) : Result := .next { classify .poll s with phase := .rdByte }

/-- TYPE_R (R106). -/
def execTypeR (s : State) : Result := .next { classify .read s with phase := .rdByte }

/-- TYPE_T (R106). -/
def execTypeT (s : State) : Result := .next { classify .transmit s with phase := .rdByte }

/-- TYPE_BAD (R106): *error*, "unexpected message-type byte" (R183). -/
def execTypeBad (_b : Byte) (s : State) : Result := raiseClass .error s

/-- ESC_LIT (R109): any byte is appended verbatim, and the read loop goes on. -/
def execEscLit (b : Byte) (s : State) : Result := append b { s with phase := .rdByte }

end Sys2Proof.Machine
end

