-- ==== Sys2Proof/Machine/Dispatch.lean ====
section
/-! DEFINITION. One arm per row of spec/opcode_table.json. -/

namespace Sys2Proof.Machine

def exec (i : Instr) (s : State) : Host.Outcome State Fault Refusal :=
  match i with
  | .stx => Sys2Proof.Machine.execStx s
  | .etx => Sys2Proof.Machine.execEtx s
  | .dle => Sys2Proof.Machine.execDle s
  | .syn => Sys2Proof.Machine.execSyn s
  | .data b => Sys2Proof.Machine.execData b s
  | .addrMatch b => Sys2Proof.Machine.execAddrMatch b s
  | .addrForeign b => Sys2Proof.Machine.execAddrForeign b s
  | .typeI => Sys2Proof.Machine.execTypeI s
  | .typeP => Sys2Proof.Machine.execTypeP s
  | .typeR => Sys2Proof.Machine.execTypeR s
  | .typeT => Sys2Proof.Machine.execTypeT s
  | .typeBad b => Sys2Proof.Machine.execTypeBad b s
  | .escLit b => Sys2Proof.Machine.execEscLit b s
  | .flEnd => Sys2Proof.Machine.execFlEnd s
  | .flSkip b => Sys2Proof.Machine.execFlSkip b s
  | .flEmpty => Sys2Proof.Machine.execFlEmpty s
  | .tx => Sys2Proof.Machine.execTx s
  | .invoke => Sys2Proof.Machine.execInvoke s
  | .setAddress a => Sys2Proof.Machine.execSetAddress a s
  | .configure ic oc ii io => Sys2Proof.Machine.execConfigure ic oc ii io s
  | .frameI a payload => Sys2Proof.Machine.execFrameI a payload s
  | .frameP a payload => Sys2Proof.Machine.execFrameP a payload s
  | .frameR a payload => Sys2Proof.Machine.execFrameR a payload s
  | .frameT a payload => Sys2Proof.Machine.execFrameT a payload s
  | .frameBadtype a t => Sys2Proof.Machine.execFrameBadtype a t s
  | .frameForeign a => Sys2Proof.Machine.execFrameForeign a s

end Sys2Proof.Machine
end

