-- ==== Sys2Proof/Machine/Fetch.lean ====
section
/-! DEFINITION. What the next step is: whose move it is, which instruction the input selects, and the state with that input
consumed (spec/00_scope.md R12, R14; spec/30_encoding.md R85; spec/40_frame_parser.md R103). -/

namespace Sys2Proof.Machine

/-- What a fetch finds. -/
inductive Fetched where
  /-- an instruction, and the state it acts on -/
  | run (i : Instr) (s : State)
  /-- a move that is no instruction: a delivery, a reset, or an engine that has no enabled step -/
  | silent (s : State)
  /-- nothing the spec gives a meaning -/
  | refuse (r : Refusal)
  deriving DecidableEq, Repr

/-- Decode a code and run what it selects in `s`. -/
def fetchCode (c : Code) (s : State) : Fetched :=
  match decode s.env c with
  | .ok i => .run i s
  | .error e => .refuse (.undecodable e)

/-- A blocking read in phase `p`: the byte is removed and decoded; with `rxq` empty the engine holds (R103, R114; log 3). -/
def fetchByte (p : Phase) (s : State) : Fetched :=
  match rxRead s with
  | some (b, s1) => fetchCode (.byte p b) s1
  | none => .silent s

/-- The flush tests availability before every read and never holds (R139). -/
def fetchFlush (s : State) : Fetched :=
  if rxAvail s = 0 then fetchCode (.noByte .flush) s else fetchByte .flush s

/-- The engine's next step, from its phase alone (R29). In IDLE it waits for the application (log 3). -/
def engineFetch (s : State) : Fetched :=
  match s.phase with
  | .idle => .silent s
  | .rdByte => fetchByte .rdByte s
  | .rdAddr => fetchByte .rdAddr s
  | .rdType => fetchByte .rdType s
  | .rdEsc => fetchByte .rdEsc s
  | .flush => fetchFlush s
  | .tx => fetchCode (.noByte .tx) s

/-- An invocation at the frame grain: a frame at the head of `rxq` is one instruction; where no whole frame stands there,
the call is a plain `Invoke` (log 12). -/
def fetchFrame (s : State) : Fetched :=
  match decodeFrame s.env s.rxq with
  | .ok (i, rest) => .run i { s with rxq := rest }
  | .error _ => fetchCode (.call .invoke) s

/-- One move of an agent (R12; log 2). -/
def moveFetch (m : Move) (s : State) : Fetched :=
  match m with
  | .engine => engineFetch s
  | .deliver b => .silent (deliver b s)
  | .call c => fetchCode (.call c) s
  | .invokeFrame => fetchFrame s
  | .reset => .silent (engineReset s)

/-- The next step: parameters outside R8 are refused (D31; log 10); the head of the agenda moves; with nothing on the agenda
the engine does. -/
def fetch (s : State) : Fetched :=
  if s.cfg.Admissible then
    match s.agenda with
    | [] => engineFetch s
    | m :: rest => moveFetch m { s with agenda := rest }
  else .refuse .badConfiguration

/-- Put a byte in front as the next one the engine reads in phase `p`, inside an invocation of a configured engine (log 1). -/
def placeByte (p : Phase) (b : Byte) (s : State) : State :=
  { s with
    agenda := []
    phase := p
    rxq := b :: s.rxq
    addressWritten := true
    countsWritten := true }

end Sys2Proof.Machine
end

