-- ==== Sys2Proof/Machine/Step.lean ====
section
/-! DEFINITION. One step of the machine: fetch, then run what was fetched (spec/00_scope.md R14). -/

namespace Sys2Proof.Machine

/-- One step. Whatever consuming the input takes is in `fetch`; `exec` is the instruction's own effect (log 13). -/
def step (s : State) : Host.Outcome State Fault Refusal :=
  match fetch s with
  | .run i s1 => exec i s1
  | .silent s1 => .next s1
  | .refuse r => .refused r

/-- The state whose very next step fetches and runs the table word `w`: its byte waits in `rxq`, the engine is inside an
invocation in the phase that reads it (logs 1 and 11). -/
def State.withFetchWord (s : State) (_nbits w : Nat) : State := placeByte (tablePhase (tableByte w)) (tableByte w) s

end Sys2Proof.Machine
end

