-- ==== Sys2Proof/Safety.lean ====
section
/-! DEFINITION. What statements call a good state: the invariants of spec/10_state.md R39 and spec/20_memory.md R56, R57, R59; holding
(spec/60_exceptions.md R185), rest (spec/70_reset_and_hazards.md R231), and an agenda whose next call the spec does not refuse. -/

namespace Sys2Proof.Machine

/-- `k` steps, ending at the first fault or refusal. -/
def steps : Nat → State → Result
  | 0, s => .next s
  | k + 1, s =>
    match step s with
    | .next t => steps k t
    | .fault r => .fault r
    | .refused r => .refused r

/-- The parser's four reading phases (R29, R103). -/
abbrev Reading (p : Phase) : Prop := p = .rdByte ∨ p = .rdAddr ∨ p = .rdType ∨ p = .rdEsc

/-- R39 as it is written, every range of it. (Its last clause, that IDLE is outside every invocation, is what `phase` means: R29.)
`configure` can break its bound on `txLen` and nothing else can (log 18). -/
abbrev RangesAsListed (s : State) : Prop :=
  s.address ≤ 64 ∧ s.inCount ≤ s.cfg.ioCap ∧ s.outCount ≤ s.cfg.ioCap ∧ s.idx ≤ s.cfg.msgCap ∧
  s.txPos ≤ s.txLen ∧ s.txLen ≤ 6 + 2 * s.inCount ∧ 6 + 2 * s.inCount ≤ s.cfg.msgCap ∧
  s.txDelay % 10 = 0 ∧ s.txDelay ≤ 655350

/-- The number of input bytes the last response was built from: the last length `SampleInputs` was called with, 0 before the
first (R32, R134; log 15). -/
def reportedCount (s : State) : Nat := s.samplelog.getLast?.getD 0

/-- The register ranges of R39 that every step keeps. `txLen` is bounded by the count its response was built from, since
`configure` may lower `inCount` afterwards (log 18); by `inCount` itself it is bounded in `TransmitOk`. -/
abbrev RangesOk (s : State) : Prop :=
  s.address ≤ 64 ∧ s.inCount ≤ s.cfg.ioCap ∧ s.outCount ≤ s.cfg.ioCap ∧ s.idx ≤ s.cfg.msgCap ∧
  s.txPos ≤ s.txLen ∧ s.txLen ≤ 6 + 2 * reportedCount s ∧ reportedCount s ≤ s.cfg.ioCap ∧
  s.txDelay % 10 = 0 ∧ s.txDelay ≤ 655350

/-- The three buffers are in canonical form and inside their bounds (R50, R57); `inputBits` is all zero, since Build clears what
a poll sampled in the same step (R59, R153). -/
abbrev BuffersOk (s : State) : Prop :=
  Memory.wf (s.cfg.msgCap + 1) none s.msg = true ∧ Memory.wf s.cfg.ioCap (some 0#8) s.inputBits = true ∧
  Memory.wf s.cfg.ioCap (some 0#8) s.outputBits = true ∧ s.inputBits = []

/-- While transmitting, a byte is left to send and every byte of the response is in `msg` (R32, R39, R155). -/
abbrev TransmitOk (s : State) : Prop :=
  s.phase = .tx → s.txPos < s.txLen ∧ s.txLen ≤ 6 + 2 * s.inCount ∧ ∀ i < s.txLen, (s.msg.find i).isSome = true

/-- While parsing, the appended bytes are in `msg` (R26); before the first start marker the classification is the one at
entry (R102); the header is read in data mode (R104). -/
abbrev ParseOk (s : State) : Prop :=
  Reading s.phase → (∀ i < s.idx, (s.msg.find i).isSome = true) ∧ (s.inData = false → s.cls = s.cfg.clsInitial) ∧
  (s.phase = .rdAddr ∨ s.phase = .rdType → s.inData = true)

/-- Inside an invocation the engine is configured (R175). -/
abbrev InvocationOk (s : State) : Prop :=
  s.phase ≠ .idle → s.addressWritten = true ∧ s.countsWritten = true

/-- The invariant every step keeps. -/
abbrev StateOk (s : State) : Prop :=
  s.cfg.Admissible ∧ RangesOk s ∧ BuffersOk s ∧ TransmitOk s ∧ ParseOk s ∧ InvocationOk s

/-- The engine holds in a blocking read (R103, R185). -/
abbrev Holding (s : State) : Prop := Reading s.phase ∧ s.rxq = []

/-- The engine is at rest (R231). -/
abbrev AtRest (s : State) : Prop := s.phase = .idle ∧ s.rxq = []

/-- A row that starts an invocation: `Invoke`, or a whole frame at the frame grain (R101; log 12). -/
abbrev StartsInvocation (i : Instr) : Prop :=
  i = .invoke ∨ (∃ a p, i = .frameI a p ∨ i = .frameP a p ∨ i = .frameR a p ∨ i = .frameT a p) ∨
  (∃ a t, i = .frameBadtype a t) ∨ ∃ a, i = .frameForeign a

/-- A row the application calls: one that starts an invocation, or a configuration call (R174). -/
abbrev CalledByApplication (i : Instr) : Prop :=
  StartsInvocation i ∨ (∃ a, i = .setAddress a) ∨ ∃ ic oc ii io, i = .configure ic oc ii io

/-- A call the spec does not refuse in `s` (R171, R174, R175). -/
def callAllowed (s : State) : Call → Bool
  | .invoke => decide (s.phase = .idle) && s.addressWritten && s.countsWritten
  | .setAddress _ => decide (s.phase = .idle)
  | .configure ic oc _ _ => decide (s.phase = .idle) && decide (ic ≤ s.cfg.ioCap) && decide (oc ≤ s.cfg.ioCap)

/-- The next move is no call that the spec refuses. -/
def nextMoveAllowed (s : State) : Bool :=
  match s.agenda with
  | .call c :: _ => callAllowed s c
  | .invokeFrame :: _ => callAllowed s .invoke
  | _ => true

/-- What the application configured: the registers no frame can write (R176). -/
abbrev SameConfiguration (s t : State) : Prop :=
  t.address = s.address ∧ t.inCount = s.inCount ∧ t.outCount = s.outCount ∧ t.invIn = s.invIn ∧ t.invOut = s.invOut ∧
  t.addressWritten = s.addressWritten ∧ t.countsWritten = s.countsWritten

/-! ## The vocabulary of the statements -/

/-- The next move is the engine's, and `u` is the state it moves in (R12; log 2). -/
abbrev EngineTurn (s u : State) : Prop :=
  (s.agenda = [] ∧ u = s) ∨ ∃ rest, s.agenda = .engine :: rest ∧ u = { s with agenda := rest }

/-- What Terminate leaves in `msg`: the appended bytes, the sentinel at `idx`, nothing known above it (R56, R113). -/
abbrev Terminated (s t : State) : Prop :=
  t.msg.find s.idx = some 0#8 ∧ (∀ i < s.idx, t.msg.find i = s.msg.find i) ∧ ∀ i, s.idx < i → t.msg.find i = none

/-- `t` is `s` with byte `b` appended in the read loop, and nothing else changed (R112). -/
abbrev Appended (b : Byte) (s t : State) : Prop :=
  t = { s with phase := .rdByte, msg := t.msg, idx := s.idx + 1 } ∧ t.msg.find s.idx = some b ∧
  ∀ i, i ≠ s.idx → t.msg.find i = s.msg.find i

/-- `t` is `s` after the parse ended in class `c` and the flush was entered, and nothing else changed (R113, R189). -/
abbrev Flushed (c : Classification) (s t : State) : Prop :=
  t = { s with phase := .flush, cls := c, msg := t.msg } ∧ Terminated s t

/-- `t` is `s` after a whole parse by this node that ended in phase `p` and class `c` with `n` payload bytes, but for the
fields a reaction writes, which are taken from `t`. -/
abbrev ParsedInto (p : Phase) (c : Classification) (n : Nat) (s t : State) : Prop :=
  t = { s with
    phase := p, cls := c, inData := true, idx := n, msg := t.msg, txDelay := t.txDelay, inputBits := t.inputBits,
    outputBits := t.outputBits, txLen := t.txLen, txPos := t.txPos, applylog := t.applylog, sampleq := t.sampleq,
    samplelog := t.samplelog, draws := t.draws, rxq := t.rxq }

/-- `msg` holds the payload `p` from cell 0 on, then the sentinel, and nothing is known above it (R56, R113). -/
abbrev Holds (p : List Byte) (t : State) : Prop := ∀ i, t.msg.find i = (p ++ [0#8])[i]?

/-- What only a poll reaction writes is unchanged. -/
abbrev SamePoll (s t : State) : Prop :=
  t.inputBits = s.inputBits ∧ t.txLen = s.txLen ∧ t.txPos = s.txPos ∧ t.sampleq = s.sampleq ∧ t.samplelog = s.samplelog

/-- What only a transmit reaction writes is unchanged. -/
abbrev SameOutputs (s t : State) : Prop := t.outputBits = s.outputBits ∧ t.applylog = s.applylog

/-- A payload as it goes on the wire: `enc` of R76, byte by byte. -/
def wirePayload (c : Config) (p : List Byte) : List Byte :=
  p.flatMap fun v => if v = 0x02#8 ∨ v = c.etx ∨ v = 0x10#8 then [0x10#8, v] else [v]

/-- A frame of type `t` for node `n`, as R72 gives it: `SYN SYN STX <addr> <type> <escaped payload> ETX`. -/
def wireFrame (c : Config) (n : Nat) (t : Byte) (p : List Byte) : List Byte :=
  [c.syn, c.syn, 0x02#8, BitVec.ofNat 8 (n + 65), t] ++ wirePayload c p ++ [c.etx]

/-- The events of sending bytes with pacing delay `d` (R156, R157). -/
def sentEvents (d : Nat) (f : List Byte) : List TxEvent :=
  f.flatMap fun b => if d = 0 then [.tx b] else [.tx b, .pace d]

/-- The inputs a poll reports: an answer of the sampler to `inCount`, its first bytes those waiting in `sampleq` (R11, R134). -/
abbrev SampleOf (s : State) (smp : List Byte) : Prop :=
  smp.length = s.inCount ∧ smp.take s.sampleq.length = s.sampleq.take s.inCount

/-- Inverted if the flag is set (R23). -/
def flipped (f : Bool) (bs : List Byte) : List Byte := if f then bs.map fun v => ~~~v else bs

end Sys2Proof.Machine
end

