-- ==== Sys2Proof/Certificates/Slice0/Obligations.lean ====
section
/-! DEFINITION. The statements for the provers. Those whose docstring says so rest on a decision of spec/92_eei_decisions.md or a
choice of this model's log and claim no rule for it. -/

open Sys2Proof Sys2Proof.Machine

/-! ## Encodings -/

/-- Words of the tables of 30_encoding.md (R85) decode to their rows, with the values R8 takes (ETX and SYN: D2, D3). -/
def Obligations.TableWordsDecodeToTheirRows : Prop :=
  decode ⟨Config.standard, 0⟩ (.byte .rdByte 0x02#8) = .ok .stx ∧
  decode ⟨Config.standard, 0⟩ (.byte .rdByte 0x03#8) = .ok .etx ∧
  decode ⟨Config.standard, 0⟩ (.byte .rdByte 0x10#8) = .ok .dle ∧
  decode ⟨Config.standard, 0⟩ (.byte .rdByte 0xFF#8) = .ok .syn ∧
  decode ⟨Config.standard, 0⟩ (.byte .rdAddr 0x41#8) = .ok (.addrMatch 0x41#8) ∧
  decode ⟨Config.standard, 64⟩ (.byte .rdAddr 0x81#8) = .ok (.addrMatch 0x81#8) ∧
  decode ⟨Config.standard, 0⟩ (.byte .rdType 0x49#8) = .ok .typeI ∧
  decode ⟨Config.standard, 0⟩ (.byte .rdType 0x69#8) = .ok (.typeBad 0x69#8) ∧
  decode ⟨Config.standard, 0⟩ (.byte .flush 0x03#8) = .ok .flEnd ∧
  decode ⟨Config.standard, 0⟩ (.frame [0xFF#8, 0xFF#8, 0x02#8, 0x41#8, 0x50#8, 0x03#8]) = .ok (.frameP 0x41#8 [])

/-- Decoding an encoded well-formed instruction gives it back, for every row and every operand the table admits. -/
def Obligations.DecodingAnEncodedInstructionGivesItBack : Prop :=
  ∀ (e : Env) (i : Instr), e.cfg.Admissible → wellFormed e i = true → decode e (encode e.cfg i) = .ok i

/-- A byte has one reading in each phase: what it decodes to is well-formed and encodes back to that byte in that phase. -/
def Obligations.DecodedBytesEncodeBack : Prop :=
  ∀ (e : Env) (p : Phase) (b : Byte) (i : Instr), decode e (.byte p b) = .ok i →
    wellFormed e i = true ∧ encode e.cfg i = .byte p b

/-- Every byte decodes in the phases that read one, and none in IDLE and TX, where "the engine reads no bytes". -/
def Obligations.BytesDecodeExactlyInThePhasesThatRead : Prop :=
  ∀ (e : Env) (p : Phase) (b : Byte), (∃ i, decode e (.byte p b) = .ok i) ↔ p ≠ .idle ∧ p ≠ .tx

/-- Decoding a frame looks at no byte behind it: appending bytes to the stream only appends them to the rest. -/
def Obligations.FrameDecodingNeverLooksBehindTheFrame : Prop :=
  ∀ (e : Env) (bs more rest : List Byte) (i : Instr), decodeFrame e bs = .ok (i, rest) →
    decodeFrame e (bs ++ more) = .ok (i, rest ++ more)

/-- R76: a frame's payload is, byte by byte, `[DLE, v]` for `STX`, `ETX`, `DLE` and `[v]` for every other byte (`SYN` too, since it differs
from those three); preamble, `STX`, address, type and the final `ETX` are sent as they are. -/
def Obligations.EscapingPutsDleBeforeTheThreeMarkers : Prop :=
  ∀ (c : Config) (a t : Byte) (p : List Byte), c.Admissible →
    escape c p = p.flatMap (fun v => if v = 0x02#8 ∨ v = c.etx ∨ v = 0x10#8 then [0x10#8, v] else [v]) ∧
    escape c [c.syn] = [c.syn] ∧
    frameBytes c a t p = [c.syn, c.syn, 0x02#8, a, t] ++ escape c p ++ [c.etx]

/-- R74: the address byte of node 0 to 64 is its address plus 65 as a number, in RD_ADDR exactly that byte matches, and `setAddress` clamps
values above 64 to 64. -/
def Obligations.ExactlyTheOffsetAddressMatches : Prop :=
  (∀ (c : Config) (n : Nat) (b : Byte), n ≤ 64 →
    (addrByte n).toNat = n + 65 ∧
    (b.toNat = n + 65 → decode ⟨c, n⟩ (.byte .rdAddr b) = .ok (.addrMatch b)) ∧
    (b.toNat ≠ n + 65 → decode ⟨c, n⟩ (.byte .rdAddr b) = .ok (.addrForeign b))) ∧
  ∀ (s : State) (a : Byte), s.phase = .idle → ∃ t, exec (.setAddress a) s = .next t ∧ t.address = min a.toNat 64

/-! ## A step runs what was decoded -/

/-- On the engine's turn, a byte at the head of `rxq` is removed and the instruction it decodes to in the current phase is run;
an empty flush runs FL_EMPTY, TX runs TX; in IDLE, and in a reading phase with nothing received, the step changes nothing
but the agenda (logs 3 and 13). -/
def Obligations.StepRunsTheDecodedInstruction : Prop :=
  ∀ s u : State, s.cfg.Admissible → EngineTurn s u →
    (∀ b r i, s.rxq = b :: r → decode s.env (.byte s.phase b) = .ok i → step s = exec i { u with rxq := r }) ∧
    (s.phase = .flush → s.rxq = [] → step s = exec .flEmpty u) ∧
    (s.phase = .tx → step s = exec .tx u) ∧
    (s.phase = .idle → step s = .next u) ∧
    (Reading s.phase → s.rxq = [] → step s = .next u)

/-- Moves of the other agents: a delivery appends to `rxq`; a call runs its instruction; a frame-grain invocation runs the frame at
the head of `rxq`, and is a plain `Invoke` where none stands there (logs 2 and 12). -/
def Obligations.StepRunsCallsFramesAndDeliveries : Prop :=
  ∀ (s : State) (m : Move) (rest : List Move), s.cfg.Admissible → s.agenda = m :: rest →
    (∀ b, m = .deliver b → step s = .next { s with agenda := rest, rxq := s.rxq ++ [b] }) ∧
    (m = .call .invoke → step s = exec .invoke { s with agenda := rest }) ∧
    (∀ a, m = .call (.setAddress a) → step s = exec (.setAddress a) { s with agenda := rest }) ∧
    (∀ ic oc ii io, m = .call (.configure ic oc ii io) → step s = exec (.configure ic oc ii io) { s with agenda := rest }) ∧
    (∀ i r, m = .invokeFrame → decodeFrame s.env s.rxq = .ok (i, r) → step s = exec i { s with agenda := rest, rxq := r }) ∧
    (∀ x, m = .invokeFrame → decodeFrame s.env s.rxq = .error x → step s = exec .invoke { s with agenda := rest })

/-- A reset at any moment, by the spec's decision D19 and log 17: the engine's state is the reset state; the streams, and what the
model holds of the surroundings, stay. -/
def Obligations.ResetAtAnyMomentKeepsTheStreams : Prop :=
  ∀ (s : State) (rest : List Move), s.cfg.Admissible → s.agenda = .reset :: rest →
    step s = .next { State.reset with
      rxq := s.rxq, txlog := s.txlog, applylog := s.applylog, cfg := s.cfg, agenda := rest, sampleq := s.sampleq,
      samplelog := s.samplelog, draws := s.draws }

/-- Parameters outside R8 are refused, by the spec's decision D31 and log 10. -/
def Obligations.InadmissibleParametersAreRefused : Prop :=
  ∀ s : State, ¬ s.cfg.Admissible → step s = .refused .badConfiguration

/-! ## The Frame Parser -/

/-- STX (R104; the clause that `idx` stays rests on D11): data mode on, the address is next, nothing else changes. -/
def Obligations.StxOpensAHeader : Prop :=
  (∀ e : Env, decode e (.byte .rdByte 0x02#8) = .ok .stx) ∧
  ∀ s : State, exec .stx s = .next { s with inData := true, phase := .rdAddr }

/-- R108: DLE in the read loop, in either mode, only switches to RD_ESC. -/
def Obligations.DleOnlySwitchesToTheEscapePhase : Prop :=
  (∀ e : Env, e.cfg.Admissible → decode e (.byte .rdByte 0x10#8) = .ok .dle) ∧
  ∀ s : State, exec .dle s = .next { s with phase := .rdEsc }

/-- R110: SYN is appended in data mode, is an overrun when the buffer is full, and is dropped outside data mode. -/
def Obligations.SynIsDataOnlyInDataMode : Prop :=
  (∀ e : Env, e.cfg.Admissible → decode e (.byte .rdByte e.cfg.syn) = .ok .syn) ∧
  ∀ s : State, s.phase = .rdByte →
    (s.inData = false → exec .syn s = .next s) ∧
    (s.inData = true → s.idx < s.cfg.msgCap → ∃ t, exec .syn s = .next t ∧ Appended s.cfg.syn s t) ∧
    (s.inData = true → s.idx = s.cfg.msgCap → ∃ t, exec .syn s = .next t ∧ Flushed .error s t)

/-- R111 (in either mode, by D12; the overrun by D5): any byte that is no marker is appended, or overruns. -/
def Obligations.OtherBytesAreAppendedInEitherMode : Prop :=
  (∀ (e : Env) (b : Byte), b ≠ 0x02#8 → b ≠ e.cfg.etx → b ≠ 0x10#8 → b ≠ e.cfg.syn →
    decode e (.byte .rdByte b) = .ok (.data b)) ∧
  ∀ (s : State) (b : Byte), s.phase = .rdByte →
    (s.idx < s.cfg.msgCap → ∃ t, exec (.data b) s = .next t ∧ Appended b s t) ∧
    (s.idx = s.cfg.msgCap → ∃ t, exec (.data b) s = .next t ∧ Flushed .error s t)

/-- R109: the byte after an escape marker is appended whatever its value, the four markers included, and the read loop goes on; where
it does not fit it is the overrun. -/
def Obligations.EscapedBytesAreAppendedVerbatim : Prop :=
  (∀ (e : Env) (b : Byte), decode e (.byte .rdEsc b) = .ok (.escLit b)) ∧
  ∀ (s : State) (b : Byte), s.phase = .rdEsc →
    (s.idx < s.cfg.msgCap → ∃ t, exec (.escLit b) s = .next t ∧ Appended b s t) ∧
    (s.idx = s.cfg.msgCap → ∃ t, exec (.escLit b) s = .next t ∧ Flushed .error s t)

/-- R105: the byte after a start marker is compared with `address + 65`; on a match the type is next and nothing else changes; on a
mismatch the parse ends as *ignore* at once. -/
def Obligations.AddressByteIsTakenByPosition : Prop :=
  (∀ (e : Env) (a : Byte), e.address ≤ 64 →
    decode e (.byte .rdAddr a) = .ok (if a.toNat = e.address + 65 then .addrMatch a else .addrForeign a)) ∧
  ∀ (s : State) (a : Byte),
    exec (.addrMatch a) s = .next { s with phase := .rdType } ∧
    (s.idx ≤ s.cfg.msgCap → ∃ t, exec (.addrForeign a) s = .next t ∧ Flushed .ignore s t)

/-- R106: the type selector gives the classification; any other byte ends the parse as *error*. -/
def Obligations.TypeSelectorGivesTheClassification : Prop :=
  (∀ (e : Env) (t : Byte), decode e (.byte .rdType t) = .ok
    (if t = 0x49#8 then .typeI else if t = 0x50#8 then .typeP else if t = 0x52#8 then .typeR
     else if t = 0x54#8 then .typeT else .typeBad t)) ∧
  ∀ s : State,
    exec .typeI s = .next { s with cls := .init, phase := .rdByte } ∧
    exec .typeP s = .next { s with cls := .poll, phase := .rdByte } ∧
    exec .typeR s = .next { s with cls := .read, phase := .rdByte } ∧
    exec .typeT s = .next { s with cls := .transmit, phase := .rdByte } ∧
    ∀ b : Byte, s.idx ≤ s.cfg.msgCap → ∃ t, exec (.typeBad b) s = .next t ∧ Flushed .error s t

/-- R107, corner case (b): the end marker ends a parse in RD_BYTE only; in RD_ESC it is data, in RD_TYPE a bad type unless it is one of
the letters, in RD_ADDR a foreign address unless it is this node's, in FLUSH the end of the flush. -/
def Obligations.EndMarkerEndsAParseOnlyInTheReadLoop : Prop :=
  ∀ e : Env, e.cfg.Admissible → e.address ≤ 64 →
    decode e (.byte .rdByte e.cfg.etx) = .ok .etx ∧
    decode e (.byte .rdEsc e.cfg.etx) = .ok (.escLit e.cfg.etx) ∧
    decode e (.byte .flush e.cfg.etx) = .ok .flEnd ∧
    (e.cfg.etx.toNat ≠ e.address + 65 → decode e (.byte .rdAddr e.cfg.etx) = .ok (.addrForeign e.cfg.etx)) ∧
    (e.cfg.etx ≠ 0x49#8 → e.cfg.etx ≠ 0x50#8 → e.cfg.etx ≠ 0x52#8 → e.cfg.etx ≠ 0x54#8 →
      decode e (.byte .rdType e.cfg.etx) = .ok (.typeBad e.cfg.etx))

/-! ## The reactions at the end marker -/

/-- R107 with R131: with *none* pending (CLS_INITIAL, D10) the end marker ends the invocation and only the sentinel is written. -/
def Obligations.EndMarkerWithNothingPendingReturns : Prop :=
  ∀ s : State, s.cls = .none → s.idx ≤ s.cfg.msgCap →
    ∃ t, exec .etx s = .next t ∧ t = { s with phase := .idle, msg := t.msg } ∧ Terminated s t

/-- R132 (positions by D7, unit by D8, short payloads by D32): `txDelay` is ten times the two payload bytes, high first; a byte at the
sentinel's place counts as 0, one above it is some byte; no other register changes. -/
def Obligations.InitializationSetsTheDelay : Prop :=
  ∀ s : State, s.cfg.Admissible → s.cls = .init → s.idx ≤ s.cfg.msgCap →
    ∃ (t : State) (hi lo : Byte), exec .etx s = .next t ∧
      t = { s with phase := .idle, msg := t.msg, draws := t.draws, txDelay := (hi.toNat * 256 + lo.toNat) * 10 } ∧
      Terminated s t ∧
      (∀ b, s.cfg.initDelayOffset < s.idx → s.msg.find s.cfg.initDelayOffset = some b → hi = b) ∧
      (s.cfg.initDelayOffset = s.idx → hi = 0#8) ∧
      (∀ b, s.cfg.initDelayOffset + 1 < s.idx → s.msg.find (s.cfg.initDelayOffset + 1) = some b → lo = b) ∧
      (s.cfg.initDelayOffset + 1 = s.idx → lo = 0#8)

/-- R134 with R151 to R155 (what the sampler answers: D17; extent of inversion: D18): a poll samples, inverts if asked, builds the
escaped Read/report frame in `msg`, clears the input bytes it took, and goes to TX. -/
def Obligations.PollBuildsTheEscapedResponse : Prop :=
  ∀ s : State, s.cfg.Admissible → s.cls = .poll → s.idx ≤ s.cfg.msgCap → s.inCount ≤ s.cfg.ioCap →
    ∃ (t : State) (smp : List Byte), exec .etx s = .next t ∧ SampleOf s smp ∧
      t = { s with
        phase := .tx, msg := t.msg, inputBits := t.inputBits, txPos := 0
        txLen := (wireFrame s.cfg s.address 0x52#8 (flipped s.invIn smp)).length
        sampleq := s.sampleq.drop s.inCount, samplelog := s.samplelog ++ [s.inCount], draws := t.draws } ∧
      (∀ i < t.txLen, t.msg.find i = (wireFrame s.cfg s.address 0x52#8 (flipped s.invIn smp))[i]?) ∧
      (∀ i, t.txLen ≤ i → t.msg.find i = if i < s.idx then s.msg.find i else if i = s.idx then some 0#8 else none) ∧
      6 ≤ t.txLen ∧ t.txLen ≤ 6 + 2 * s.inCount ∧
      (∀ i < s.inCount, ioByte t.inputBits i = 0#8) ∧
      (∀ i, s.inCount ≤ i → ioByte t.inputBits i = ioByte s.inputBits i)

/-- R135 (short payloads by D32, extent of inversion by D18): a transmit copies exactly `outCount` bytes to the outputs, inverted if
asked, and applies them; a position at the sentinel reads 0, one above it some byte; cells past the count keep theirs. -/
def Obligations.TransmitCopiesAndAppliesTheOutputs : Prop :=
  ∀ s : State, s.cfg.Admissible → s.cls = .transmit → s.idx ≤ s.cfg.msgCap → s.outCount ≤ s.cfg.ioCap →
    ∃ (t : State) (src : List Byte), exec .etx s = .next t ∧ src.length = s.outCount ∧
      t = { s with
        phase := .idle, msg := t.msg, draws := t.draws, outputBits := t.outputBits
        applylog := s.applylog ++ [flipped s.invOut src] } ∧
      Terminated s t ∧
      (∀ i b, i < s.outCount → i < s.idx → s.msg.find i = some b → src[i]? = some b) ∧
      (s.idx < s.outCount → src[s.idx]? = some 0#8) ∧
      (∀ i < s.outCount, (flipped s.invOut src)[i]? = some (ioByte t.outputBits i)) ∧
      (∀ i, s.outCount ≤ i → ioByte t.outputBits i = ioByte s.outputBits i)

/-- R136 by D14, R137, R138: a parse that ends at an end marker in *read*, *error* or *ignore* enters the flush, the sentinel written and
nothing else changed. -/
def Obligations.RejectedParsesEnterTheFlush : Prop :=
  ∀ s : State, s.cls = .read ∨ s.cls = .error ∨ s.cls = .ignore → s.idx ≤ s.cfg.msgCap →
    ∃ t, exec .etx s = .next t ∧ Flushed s.cls s t

/-! ## The flush -/

/-- R139 (escapes not honoured: D26): an end marker ends the flush, any other byte is discarded, no byte ends it; nothing is stored. -/
def Obligations.FlushStoresNothing : Prop :=
  (∀ (e : Env) (b : Byte), decode e (.byte .flush b) = .ok (if b = e.cfg.etx then .flEnd else .flSkip b)) ∧
  ∀ s : State, s.phase = .flush →
    exec .flEnd s = .next { s with phase := .idle } ∧
    (∀ b, exec (.flSkip b) s = .next s) ∧
    exec .flEmpty s = .next { s with phase := .idle }

/-- R139 over a run with no delivery: the flush discards through the next end marker and leaves what follows it. -/
def Obligations.FlushDiscardsThroughTheNextEndMarker : Prop :=
  ∀ (s : State) (junk rest : List Byte), s.cfg.Admissible → s.agenda = [] → s.phase = .flush →
    s.rxq = junk ++ s.cfg.etx :: rest → s.cfg.etx ∉ junk →
    steps (junk.length + 1) s = .next { s with phase := .idle, rxq := rest }

/-- R139 over a run with no delivery: with no end marker received the flush discards everything and ends. -/
def Obligations.FlushWithoutAnEndMarkerEmptiesTheQueue : Prop :=
  ∀ s : State, s.cfg.Admissible → s.agenda = [] → s.phase = .flush → s.cfg.etx ∉ s.rxq →
    steps (s.rxq.length + 1) s = .next { s with phase := .idle, rxq := [] }

/-! ## The encoder -/

/-- R151 to R154: Build puts header, escaped input bytes and end marker into `msg` from cell 0 on, and clears every input byte it took, in
one step that writes nothing to the transport. -/
def Obligations.BuildAssemblesAndClears : Prop :=
  ∀ s : State, s.cfg.Admissible → s.inCount ≤ s.cfg.ioCap →
    ∃ (t : State) (d : List Byte), build s = .next t ∧ d.length = s.inCount ∧
      (∀ i < s.inCount, d[i]? = some (ioByte s.inputBits i)) ∧
      t = { s with msg := t.msg, inputBits := t.inputBits, txLen := t.txLen, txPos := t.txPos, phase := .tx } ∧
      (∀ i < (wireFrame s.cfg s.address 0x52#8 d).length, t.msg.find i = (wireFrame s.cfg s.address 0x52#8 d)[i]?) ∧
      (∀ i, (wireFrame s.cfg s.address 0x52#8 d).length ≤ i → t.msg.find i = s.msg.find i) ∧
      (∀ i < s.inCount, ioByte t.inputBits i = 0#8) ∧
      (∀ i, s.inCount ≤ i → ioByte t.inputBits i = ioByte s.inputBits i)

/-- R156 with R157 (`TxWrite` never holds: D22; the suspension as an event: D24; the echo: D23): one byte is written and paced, `txPos`
moves on, and after the last byte the invocation is over; nothing else changes. -/
def Obligations.SendStepWritesAndPacesOneByte : Prop :=
  ∀ (s : State) (b : Byte), s.txPos ≤ s.cfg.msgCap → s.msg.find s.txPos = some b →
    exec .tx s = .next { s with
      phase := if s.txPos + 1 = s.txLen then .idle else .tx
      txPos := s.txPos + 1
      txlog := s.txlog ++ (if s.txDelay = 0 then [.tx b] else [.tx b, .pace s.txDelay])
      rxq := if s.cfg.rxSeesOwnTx then s.rxq ++ [b] else s.rxq }

/-- R156 over a run: an assembled response goes out in buffer order, each byte once and each paced, and the invocation ends. -/
def Obligations.ResponseIsSentInBufferOrder : Prop :=
  ∀ (s : State) (f : List Byte), s.cfg.Admissible → s.agenda = [] → s.phase = .tx → s.txPos = 0 → s.txLen = f.length →
    f ≠ [] → f.length ≤ s.cfg.msgCap + 1 → (∀ i < f.length, s.msg.find i = f[i]?) →
    steps f.length s = .next { s with
      phase := .idle, txPos := f.length, txlog := s.txlog ++ sentEvents s.txDelay f
      rxq := if s.cfg.rxSeesOwnTx then s.rxq ++ f else s.rxq }

/-! ## The calls -/

/-- R101 with R102 (D10, D11, D13): in IDLE and configured, `Invoke` with nothing received only classifies *none*; otherwise the parse
starts at index 0, outside data mode, and no byte is consumed yet. -/
def Obligations.InvokeReturnsAtOnceOrStartsAParse : Prop :=
  ∀ s : State, s.phase = .idle → s.addressWritten = true → s.countsWritten = true →
    (s.rxq = [] → exec .invoke s = .next { s with cls := .none }) ∧
    (s.rxq ≠ [] → exec .invoke s = .next { s with idx := 0, inData := false, cls := s.cfg.clsInitial, phase := .rdByte })

/-- R170: `setAddress` stores and returns its argument clamped to 64. -/
def Obligations.SetAddressStoresAndReturnsTheClampedValue : Prop :=
  ∀ (s : State) (a : Byte), s.phase = .idle →
    (a.toNat ≤ 64 → exec (.setAddress a) s = .next { s with address := a.toNat, addressWritten := true, returned := some a.toNat }) ∧
    (64 < a.toNat → exec (.setAddress a) s = .next { s with address := 64, addressWritten := true, returned := some 64 })

/-- R171 (the call shape and its bound: D29): counts up to `IO_CAP` are stored with the flags; the buffers keep their contents. -/
def Obligations.ConfigureStoresTheCountsAndFlags : Prop :=
  ∀ (s : State) (ic oc : Nat) (ii io : Bool), s.phase = .idle → ic ≤ s.cfg.ioCap → oc ≤ s.cfg.ioCap →
    exec (.configure ic oc ii io) s =
      .next { s with inCount := ic, outCount := oc, invIn := ii, invOut := io, countsWritten := true }

/-- What the spec refuses (D20, D21, D29) and nothing else: any call or frame inside an invocation; `Invoke` or a frame before
configuration; a count above `IO_CAP`. No other instruction is ever refused, and an allowed call completes. -/
def Obligations.CallsAreRefusedExactlyWhereTheSpecSaysSo : Prop :=
  ∀ s : State,
    (∀ i, s.phase ≠ .idle → CalledByApplication i → exec i s = .refused .callDuringInvocation) ∧
    (∀ i, s.phase = .idle → (s.addressWritten = false ∨ s.countsWritten = false) → StartsInvocation i →
      exec i s = .refused .notConfigured) ∧
    (∀ ic oc ii io, s.phase = .idle → (s.cfg.ioCap < ic ∨ s.cfg.ioCap < oc) →
      exec (.configure ic oc ii io) s = .refused .countTooLarge) ∧
    (∀ i r, exec i s = .refused r →
      (s.phase ≠ .idle ∧ CalledByApplication i) ∨
      (s.phase = .idle ∧ (s.addressWritten = false ∨ s.countsWritten = false) ∧ StartsInvocation i) ∨
      (s.phase = .idle ∧ ∃ ic oc ii io, i = .configure ic oc ii io ∧ (s.cfg.ioCap < ic ∨ s.cfg.ioCap < oc))) ∧
    (∀ c, callAllowed s c = true → ∃ t, exec (decodeCall c) s = .next t)

/-! ## The frame grain -/

/-- FRAME_I (R79, R83, R132; position by D7, short payloads by D32): `txDelay` becomes ten times the two bytes at `INIT_DELAY_OFFSET` of the
payload followed by its sentinel 0x00; a byte past the sentinel is some byte. The rest of the payload changes nothing else. -/
def Obligations.InitializationFrameSetsTheDelay : Prop :=
  ∀ (s : State) (a : Byte) (p : List Byte), s.cfg.Admissible → s.phase = .idle → s.addressWritten = true →
    s.countsWritten = true → p.length ≤ s.cfg.msgCap →
    ∃ (t : State) (hi lo : Byte), exec (.frameI a p) s = .next t ∧ ParsedInto .idle .init p.length s t ∧ Holds p t ∧
      t.txDelay = (hi.toNat * 256 + lo.toNat) * 10 ∧ SamePoll s t ∧ SameOutputs s t ∧ t.rxq = s.rxq ∧
      (∀ b, (p ++ [0#8])[s.cfg.initDelayOffset]? = some b → hi = b) ∧
      (∀ b, (p ++ [0#8])[s.cfg.initDelayOffset + 1]? = some b → lo = b)

/-- FRAME_P (R80, R134, R151 to R155; D17, D18): whatever its payload, the response to a poll is the Read/report frame of the sampled
inputs, inverted if asked, and is ready to send. -/
def Obligations.PollFrameIsAnsweredWithTheSampledInputs : Prop :=
  ∀ (s : State) (a : Byte) (p : List Byte), s.cfg.Admissible → s.phase = .idle → s.addressWritten = true →
    s.countsWritten = true → p.length ≤ s.cfg.msgCap → s.inCount ≤ s.cfg.ioCap →
    ∃ (t : State) (smp : List Byte), exec (.frameP a p) s = .next t ∧ SampleOf s smp ∧
      ParsedInto .tx .poll p.length s t ∧ t.txPos = 0 ∧ t.txDelay = s.txDelay ∧ SameOutputs s t ∧ t.rxq = s.rxq ∧
      t.sampleq = s.sampleq.drop s.inCount ∧ t.samplelog = s.samplelog ++ [s.inCount] ∧
      t.txLen = (wireFrame s.cfg s.address 0x52#8 (flipped s.invIn smp)).length ∧
      (∀ i < t.txLen, t.msg.find i = (wireFrame s.cfg s.address 0x52#8 (flipped s.invIn smp))[i]?) ∧
      (∀ i, t.txLen ≤ i → t.msg.find i = (p ++ [0#8])[i]?) ∧
      (∀ i < s.inCount, ioByte t.inputBits i = 0#8) ∧
      (∀ i, s.inCount ≤ i → ioByte t.inputBits i = ioByte s.inputBits i)

/-- FRAME_R with this node's address (R136, by D14): the payload is never used and the flush is entered; FRAME_BADTYPE (R137) and
FRAME_FOREIGN (R138): the flush is entered at the header, with nothing appended. No session register, I/O buffer or log changes. -/
def Obligations.RejectedFramesTouchNoSessionState : Prop :=
  ∀ (s : State) (a : Byte), s.phase = .idle → s.addressWritten = true → s.countsWritten = true →
    (∀ p : List Byte, p.length ≤ s.cfg.msgCap → ∃ t, exec (.frameR a p) s = .next t ∧ ParsedInto .flush .read p.length s t ∧ Holds p t ∧
      t.txDelay = s.txDelay ∧ SamePoll s t ∧ SameOutputs s t ∧ t.rxq = s.rxq ∧ t.draws = s.draws) ∧
    (∀ ty : Byte, ∃ t, exec (.frameBadtype a ty) s = .next t ∧ ParsedInto .flush .error 0 s t ∧ Holds [] t ∧
      t.txDelay = s.txDelay ∧ SamePoll s t ∧ SameOutputs s t ∧ t.rxq = s.rxq ∧ t.draws = s.draws) ∧
    (∃ t, exec (.frameForeign a) s = .next t ∧ ParsedInto .flush .ignore 0 s t ∧ Holds [] t ∧
      t.txDelay = s.txDelay ∧ SamePoll s t ∧ SameOutputs s t ∧ t.rxq = s.rxq ∧ t.draws = s.draws)

/-- FRAME_T (R82, R135; D18, short payloads by D32): the first `outCount` bytes of the payload followed by its sentinel 0x00, inverted if
asked, are stored in the outputs and applied; a byte past the sentinel is some byte, and the excess changes nothing. -/
def Obligations.TransmitFrameAppliesItsFirstBytes : Prop :=
  ∀ (s : State) (a : Byte) (p : List Byte), s.cfg.Admissible → s.phase = .idle → s.addressWritten = true →
    s.countsWritten = true → p.length ≤ s.cfg.msgCap → s.outCount ≤ s.cfg.ioCap →
    ∃ (t : State) (src : List Byte), exec (.frameT a p) s = .next t ∧ src.length = s.outCount ∧
      ParsedInto .idle .transmit p.length s t ∧ Holds p t ∧ t.txDelay = s.txDelay ∧ SamePoll s t ∧ t.rxq = s.rxq ∧
      t.applylog = s.applylog ++ [flipped s.invOut src] ∧
      (∀ i b, i < s.outCount → (p ++ [0#8])[i]? = some b → src[i]? = some b) ∧
      (∀ i < s.outCount, (flipped s.invOut src)[i]? = some (ioByte t.outputBits i)) ∧
      (∀ i, s.outCount ≤ i → ioByte t.outputBits i = ioByte s.outputBits i)

/-- R112 at both grains (the boundary by D5): a frame of this node with more than `MSG_CAP` payload bytes ends in *error* whatever its
type; nothing is applied, sampled or set, and the bytes after the one that did not fit are still in `rxq`. First the frame rows (log 12);
then the frame read byte by byte from `Invoke` on, the run every step of which the machine takes. -/
def Obligations.OverlongFramesAreErrors : Prop :=
  (∀ (s : State) (a : Byte) (p : List Byte) (i : Instr), s.phase = .idle → s.addressWritten = true → s.countsWritten = true →
    s.cfg.msgCap < p.length → (i = .frameI a p ∨ i = .frameP a p ∨ i = .frameR a p ∨ i = .frameT a p) →
    ∃ t, exec i s = .next t ∧ ParsedInto .flush .error s.cfg.msgCap s t ∧ Holds (p.take s.cfg.msgCap) t ∧ t.txDelay = s.txDelay ∧ SamePoll s t ∧
      SameOutputs s t ∧ t.rxq = wirePayload s.cfg (p.drop (s.cfg.msgCap + 1)) ++ s.cfg.etx :: s.rxq) ∧
  ∀ (s : State) (ty : Byte) (p rest : List Byte), s.cfg.Admissible → s.agenda = [.call .invoke] → s.phase = .idle →
    s.addressWritten = true → s.countsWritten = true → s.cfg.msgCap < p.length →
    (ty = 0x49#8 ∨ ty = 0x50#8 ∨ ty = 0x52#8 ∨ ty = 0x54#8) → s.rxq = wireFrame s.cfg s.address ty p ++ rest →
    ∃ t, steps (6 + (wirePayload s.cfg (p.take (s.cfg.msgCap + 1))).length) s = .next t ∧
      t = { s with
        agenda := [], phase := .flush, cls := .error, inData := true, idx := s.cfg.msgCap, msg := t.msg
        rxq := wirePayload s.cfg (p.drop (s.cfg.msgCap + 1)) ++ s.cfg.etx :: rest } ∧
      Holds (p.take s.cfg.msgCap) t

/-- The two grains agree: for every well-formed frame, `Invoke` and then one step per byte of the frame reach exactly the state the
frame's own instruction gives, when nothing else moves in between (log 12). -/
def Obligations.FrameGrainAgreesWithByteGrain : Prop :=
  ∀ (s : State) (i : Instr) (bs rest : List Byte), s.cfg.Admissible → s.agenda = [.call .invoke] → s.phase = .idle →
    s.addressWritten = true → s.countsWritten = true → wellFormed s.env i = true → encode s.cfg i = .frame bs →
    s.rxq = bs ++ rest →
    steps (1 + bs.length) s = exec i { s with agenda := [], rxq := rest }

/-! ## Whole cycles -/

/-- R158: a response frame, parsed by a node with the same address, gives back exactly the bytes it was built from, for every content of at
most `IO_CAP` bytes; it is then a *read* and the flush is entered with what follows the frame untouched. -/
def Obligations.ResponseParsesBackToTheInputs : Prop :=
  ∀ (s : State) (d rest : List Byte), s.cfg.Admissible → s.agenda = [.call .invoke] → s.phase = .idle →
    s.addressWritten = true → s.countsWritten = true → d.length ≤ s.cfg.ioCap →
    s.rxq = wireFrame s.cfg s.address 0x52#8 d ++ rest →
    ∃ t, steps (1 + (wireFrame s.cfg s.address 0x52#8 d).length) s = .next t ∧
      t.cls = .read ∧ t.idx = d.length ∧ (∀ i < d.length, t.msg.find i = d[i]?) ∧ t.phase = .flush ∧ t.rxq = rest

/-- One poll cycle, byte by byte, with no other move (no echo: D23; the sampler's answer by D17 and log 9, the record of its call by log 15):
the engine answers a Poll frame with the Read/report frame of the inputs
it sampled, paced byte by byte, clears them, and is idle again with the following bytes still in `rxq`. -/
def Obligations.PollCycleReportsTheSampledInputs : Prop :=
  ∀ (s : State) (rest : List Byte), s.cfg.Admissible → s.cfg.rxSeesOwnTx = false → s.agenda = [.call .invoke] →
    s.phase = .idle → s.addressWritten = true → s.countsWritten = true → s.inCount ≤ s.cfg.ioCap →
    s.rxq = wireFrame s.cfg s.address 0x50#8 [] ++ rest →
    ∃ (n : Nat) (t : State) (smp : List Byte), steps n s = .next t ∧ SampleOf s smp ∧
      t.phase = .idle ∧ t.rxq = rest ∧
      t.txlog = s.txlog ++ sentEvents s.txDelay (wireFrame s.cfg s.address 0x52#8 (flipped s.invIn smp)) ∧
      (∀ i < s.inCount, ioByte t.inputBits i = 0#8) ∧ t.samplelog = s.samplelog ++ [s.inCount] ∧
      t.txDelay = s.txDelay ∧ SameOutputs s t ∧ SameConfiguration s t

/-- R138, over a frame with another node's address, whole in `rxq` and with no end marker inside: it is *ignore*, is discarded through its end
marker, no handler runs, and no session register, I/O buffer or log changes. The spec's decisions, not R138, say that a body ending in `DLE`
changes nothing of this (D26), that the sentinel is written (D30) and that nothing is known above it (D16): logs 8 and 21. -/
def Obligations.ForeignFrameIsDiscardedUnseen : Prop :=
  ∀ (s : State) (a : Byte) (body rest : List Byte), s.cfg.Admissible → s.agenda = [.call .invoke] → s.phase = .idle →
    s.addressWritten = true → s.countsWritten = true → s.address ≤ 64 → a.toNat ≠ s.address + 65 → s.cfg.etx ∉ body →
    s.rxq = [s.cfg.syn, s.cfg.syn, 0x02#8, a] ++ body ++ s.cfg.etx :: rest →
    ∃ t, steps (body.length + 6) s = .next t ∧
      t = { s with agenda := [], rxq := rest, cls := .ignore, inData := true, idx := 0, msg := t.msg } ∧ Holds [] t

/-- R114: a hold lasts. With nothing received and no other agent moving, no number of steps leads out of a blocking read (log 3). -/
def Obligations.AHoldLastsUntilAByteArrives : Prop :=
  ∀ (s : State) (k : Nat), s.cfg.Admissible → s.agenda = [] → Holding s → steps k s = .next s

/-- R231: at rest, `Invoke` changes nothing but the classification, which is *none*. -/
def Obligations.AtRestInvokeChangesNothing : Prop :=
  ∀ (s : State) (rest : List Move), s.cfg.Admissible → AtRest s → s.addressWritten = true → s.countsWritten = true →
    s.agenda = .call .invoke :: rest → step s = .next { s with agenda := rest, cls := .none }

/-! ## Invariants and rules of the whole machine -/

/-- The reset state, with the values of the spec's decision D19 and this model's logs 6 to 9: the invariant and all of R39 hold. -/
def Obligations.ResetStateSatisfiesTheInvariant : Prop :=
  StateOk State.reset ∧ RangesAsListed State.reset ∧ State.reset.phase = .idle ∧ State.reset.txDelay = 0 ∧ State.reset.cls = .none ∧
  State.reset.addressWritten = false ∧ State.reset.countsWritten = false ∧
  (∀ i, ioByte State.reset.inputBits i = 0#8 ∧ ioByte State.reset.outputBits i = 0#8) ∧
  State.reset.rxq = [] ∧ State.reset.txlog = [] ∧ State.reset.applylog = []

/-- Every step keeps the invariant: the ranges of R39 (`txLen` bounded by the count
its response was built from: log 18), the canonical buffers inside their bounds (R57), an
all-zero `inputBits` between steps (R59), a response in `msg` while it is being sent, and a configured engine inside an invocation (R175). -/
def Obligations.EveryStepKeepsTheInvariant : Prop :=
  ∀ s t : State, StateOk s → step s = .next t → StateOk t

/-- R52, R57: from a state with the invariant no step faults. -/
def Obligations.NoAccessFaults : Prop :=
  ∀ (s : State) (f : Fault), StateOk s → step s ≠ .fault f

/-- From a state with the invariant, a step answers a next state unless the next move is a call the spec refuses. -/
def Obligations.OnlyRefusedCallsStopTheMachine : Prop :=
  ∀ s : State, StateOk s → ((∃ t, step s = .next t) ↔ nextMoveAllowed s = true)

/-- R176, R38: only `setAddress`, `configure` and a reset write the configuration; no byte and no frame does. -/
def Obligations.NoFrameWritesTheConfiguration : Prop :=
  ∀ s t : State, step s = .next t →
    (∀ a, s.agenda.head? ≠ some (.call (.setAddress a))) →
    (∀ ic oc ii io, s.agenda.head? ≠ some (.call (.configure ic oc ii io))) → s.agenda.head? ≠ some .reset →
    SameConfiguration s t ∧ t.returned = s.returned

/-- R2: the engine writes to the transmit channel only while it sends a response, and it starts to send only as the reaction to a *poll*.
The steps meant include a reset, of which the model's log 17, not R2, says that `txlog` stays. -/
def Obligations.OnlyTheSendStepTransmits : Prop :=
  ∀ s t : State, step s = .next t → s.phase ≠ .tx → t.txlog = s.txlog ∧ (t.phase = .tx → t.cls = .poll)

/-- R34, R35: both logs only grow at their end. The steps meant include a reset, of which the model's log 17, not R34 or R35, says that both
logs stay (R211 against R40 and R210). -/
def Obligations.LogsOnlyGrow : Prop :=
  ∀ s t : State, step s = .next t →
    (∃ ev, t.txlog = s.txlog ++ ev) ∧ (∃ ap, t.applylog = s.applylog ++ ap)

/-- R35: `ApplyOutputs` is called only as the reaction to a *transmit*, once, with `outCount` bytes, and nothing else changes `outputBits` but
a reset, which zeroes them and calls no `ApplyOutputs` (R40 by D19; that the earlier entries of `applylog` stay is the model's log 17). -/
def Obligations.OnlyATransmitAppliesOutputs : Prop :=
  ∀ s t : State, step s = .next t →
    (t.applylog = s.applylog ∧ t.outputBits = s.outputBits) ∨
    (∃ bs, bs.length = s.outCount ∧ t.applylog = s.applylog ++ [bs] ∧ t.cls = .transmit ∧ t.phase = .idle) ∨
    (s.agenda.head? = some .reset ∧ t.applylog = s.applylog ∧ ∀ i, ioByte t.outputBits i = 0#8)

/-- R58, R62: at the byte grain and without an echo, a step leaves `rxq` alone, removes its oldest byte, or appends one at its end. -/
def Obligations.ReceivedBytesAreReadInOrderEachOnce : Prop :=
  ∀ s t : State, step s = .next t → s.cfg.rxSeesOwnTx = false → s.agenda.head? ≠ some .invokeFrame →
    t.rxq = s.rxq ∨ (∃ b, s.rxq = b :: t.rxq) ∨ (∃ b, t.rxq = s.rxq ++ [b])

/-- R225: nothing is read while a response is being sent. -/
def Obligations.NothingIsReadDuringTransmission : Prop :=
  ∀ s t : State, step s = .next t → s.phase = .tx → ∃ more, t.rxq = s.rxq ++ more

/-- R9, R133: nothing depends on the role tag: two runs that differ only in it differ only in it. -/
def Obligations.RoleTagIsNotObservable : Prop :=
  ∀ (s t : State) (g : Byte) (k : Nat), steps k s = .next t →
    steps k { s with cfg := { s.cfg with roleTag := g } } =
      .next { t with cfg := { t.cfg with roleTag := g } }

/-- No step changes the parameters (this model's log 4). -/
def Obligations.ParametersAreFixed : Prop :=
  ∀ s t : State, step s = .next t → t.cfg = s.cfg

/-- R39's clause `txLen ≤ 6 + 2·inCount` does not survive a `configure` that lowers the count after a response: a state with the invariant
and with all of R39, whose next move is such a call, and the state after it, with the lower count, the same `txLen` and the clause
broken (log 18; the spec's R171 leaves `txLen` alone). -/
def Obligations.LoweringTheCountLeavesALongerTxLen : Prop :=
  ∃ (s t : State) (ic oc : Nat) (ii io : Bool) (rest : List Move), StateOk s ∧ RangesAsListed s ∧
    s.agenda = .call (.configure ic oc ii io) :: rest ∧ ic < s.inCount ∧ step s = .next t ∧ StateOk t ∧
    t.inCount = ic ∧ t.txLen = s.txLen ∧ 6 + 2 * t.inCount < t.txLen

/-- R39 as written, in a state with the invariant: it holds throughout TX, and every step keeps it but a `configure` with a count too
low for the `txLen` that the last response left (log 18: R171 writes four registers and `txLen` is none of them). -/
def Obligations.OnlyALoweredCountBreaksTheListedRanges : Prop :=
  ∀ s : State, StateOk s →
    (s.phase = .tx → RangesAsListed s) ∧
    ∀ t, RangesAsListed s → step s = .next t →
      (RangesAsListed t ↔ ∀ ic oc ii io, s.agenda.head? = some (.call (.configure ic oc ii io)) → s.txLen ≤ 6 + 2 * ic)
end

