-- ==== Sys2Proof/Laws/Memory.lean ====
section
/-! SUPPORT. The laws of a buffer: a read after a write, other indices unchanged, and the canonical form, which every
operation keeps (spec/20_memory.md R50, R56, R57). -/

namespace Sys2Proof.Machine

/-! ## Reading back -/

@[simp] theorem Memory.find_nil (a : Nat) : Memory.find [] a = none := rfl

@[simp] theorem Memory.find_insert_same (m : Memory) (a : Nat) (b : BitVec 8) : (m.insert a b).find a = some b := by
  induction m with
  | nil => simp [Memory.insert, Memory.find]
  | cons c r ih =>
    obtain ⟨k, v⟩ := c
    simp only [Memory.insert]
    split
    · simp [Memory.find]
    · split
      · simp [Memory.find]
      · rename_i h1 h2
        have : k ≠ a := fun h => h2 h.symm
        simp [Memory.find, this, ih]

theorem Memory.find_insert_other (m : Memory) {a i : Nat} (b : BitVec 8) (h : i ≠ a) :
    (m.insert a b).find i = m.find i := by
  induction m with
  | nil => simp [Memory.insert, Memory.find, Ne.symm h]
  | cons c r ih =>
    obtain ⟨k, v⟩ := c
    simp only [Memory.insert]
    split
    · simp [Memory.find, Ne.symm h]
    · split
      · rename_i h2
        subst h2
        simp [Memory.find, Ne.symm h]
      · simp [Memory.find, ih]

theorem Memory.find_filter (m : Memory) (p : Nat → Bool) (i : Nat) :
    Memory.find (m.filter fun c => p c.1) i = if p i then m.find i else none := by
  induction m with
  | nil => simp
  | cons c r ih =>
    obtain ⟨k, v⟩ := c
    by_cases hk : p k = true
    · simp only [List.filter_cons, hk, if_true, Memory.find, ih]
      by_cases hi : k = i
      · subst hi; simp [hk]
      · simp [hi]
    · simp only [List.filter_cons, hk, Memory.find]
      by_cases hi : k = i
      · subst hi; simp [hk, ih]
      · simp [hi, ih]

@[simp] theorem Memory.find_erase_same (m : Memory) (a : Nat) : (m.erase a).find a = none := by
  simp [Memory.erase, Memory.find_filter m (fun k => k != a)]

theorem Memory.find_erase_other (m : Memory) {a i : Nat} (h : i ≠ a) : (m.erase a).find i = m.find i := by
  simp [Memory.erase, Memory.find_filter m (fun k => k != a), h]

/-- A forgotten cell is unlisted; the others read as before. -/
theorem Memory.find_forgetAbove (m : Memory) (n i : Nat) :
    (m.forgetAbove n).find i = if i ≤ n then m.find i else none := by
  simp [Memory.forgetAbove, Memory.find_filter m (fun k => decide (k ≤ n))]

/-- What a write does, whatever an unlisted cell reads as. -/
theorem Memory.find_write (u : Option (BitVec 8)) (m : Memory) (a i : Nat) (b : BitVec 8) :
    (Memory.write u m a b).find i = if i = a then (if u = some b then none else some b) else m.find i := by
  unfold Memory.write
  by_cases hu : u = some b <;> by_cases hi : i = a
  · subst hi; simp [hu]
  · simp [hu, hi, Memory.find_erase_other m hi]
  · subst hi; simp [hu]
  · simp [hu, hi, Memory.find_insert_other m b hi]

/-- A read after a write gives the value written, an unlisted cell reading as `d`. -/
theorem Memory.read_write (m : Memory) (a i : Nat) (b d : BitVec 8) :
    ((Memory.write (some d) m a b).find i).getD d = if i = a then b else (m.find i).getD d := by
  rw [Memory.find_write]
  by_cases hi : i = a
  · by_cases hd : d = b
    · simp [hi, hd]
    · simp [hi, hd]
  · simp [hi]

/-- Writing a list leaves every other index alone. -/
theorem Memory.find_writeList_other (u : Option (BitVec 8)) (bs : List (BitVec 8)) (m : Memory) (a i : Nat)
    (h : i < a ∨ a + bs.length ≤ i) : (Memory.writeList u m a bs).find i = m.find i := by
  induction bs generalizing m a with
  | nil => rfl
  | cons b r ih =>
    simp only [List.length_cons] at h
    rw [Memory.writeList, ih _ _ (by omega), Memory.find_write]
    simp [show i ≠ a by omega]

/-- Writing a list where nothing is removed: index `a + k` holds byte `k`. -/
theorem Memory.find_writeList_none (bs : List (BitVec 8)) (m : Memory) (a k : Nat) (h : k < bs.length) :
    (Memory.writeList none m a bs).find (a + k) = some bs[k] := by
  induction bs generalizing m a k with
  | nil => simp at h
  | cons b r ih =>
    rw [Memory.writeList]
    cases k with
    | zero =>
      rw [Memory.find_writeList_other _ _ _ _ _ (by omega), Memory.find_write]
      simp
    | succ k =>
      have := ih (Memory.write none m a b) (a + 1) k (by simpa using h)
      rw [show a + (k + 1) = a + 1 + k by omega, this]
      simp

/-- The same where an unlisted cell reads as `d`. -/
theorem Memory.read_writeList (d : BitVec 8) (bs : List (BitVec 8)) (m : Memory) (a k : Nat) (h : k < bs.length) :
    ((Memory.writeList (some d) m a bs).find (a + k)).getD d = bs[k] := by
  induction bs generalizing m a k with
  | nil => simp at h
  | cons b r ih =>
    rw [Memory.writeList]
    cases k with
    | zero =>
      rw [Memory.find_writeList_other _ _ _ _ _ (by omega), Memory.read_write]
      simp
    | succ k =>
      have := ih (Memory.write (some d) m a b) (a + 1) k (by simpa using h)
      rw [show a + (k + 1) = a + 1 + k by omega, this]
      simp

/-- Writing two lists one after the other is writing their concatenation. -/
theorem Memory.writeList_append (u : Option (BitVec 8)) (xs ys : List (BitVec 8)) (m : Memory) (a : Nat) :
    Memory.writeList u m a (xs ++ ys) = Memory.writeList u (Memory.writeList u m a xs) (a + xs.length) ys := by
  induction xs generalizing m a with
  | nil => rfl
  | cons x r ih =>
    simp only [List.cons_append, Memory.writeList, ih, List.length_cons]
    congr 1
    omega

/-! ## The canonical form -/

theorem Memory.risingFrom_mono {m : Memory} {k n : Nat} (h : Memory.risingFrom n m = true) (hk : k ≤ n) :
    Memory.risingFrom k m = true := by
  cases m with
  | nil => rfl
  | cons c r =>
    obtain ⟨x, v⟩ := c
    simp only [Memory.risingFrom, Bool.and_eq_true, decide_eq_true_eq] at h ⊢
    exact ⟨by omega, h.2⟩

theorem Memory.risingFrom_insert {m : Memory} {n a : Nat} (b : BitVec 8) (h : Memory.risingFrom n m = true) (ha : n ≤ a) :
    Memory.risingFrom n (m.insert a b) = true := by
  induction m generalizing n with
  | nil => simp [Memory.insert, Memory.risingFrom, ha]
  | cons c r ih =>
    obtain ⟨k, v⟩ := c
    simp only [Memory.risingFrom, Bool.and_eq_true, decide_eq_true_eq] at h
    simp only [Memory.insert]
    split
    · simp only [Memory.risingFrom, Bool.and_eq_true, decide_eq_true_eq]
      exact ⟨ha, by omega, h.2⟩
    · split
      · rename_i _ h2
        subst h2
        simp only [Memory.risingFrom, Bool.and_eq_true, decide_eq_true_eq]
        exact ⟨ha, h.2⟩
      · simp only [Memory.risingFrom, Bool.and_eq_true, decide_eq_true_eq]
        exact ⟨h.1, ih h.2 (by omega)⟩

theorem Memory.risingFrom_filter {m : Memory} {n : Nat} (p : Host.Cell → Bool) (h : Memory.risingFrom n m = true) :
    Memory.risingFrom n (m.filter p) = true := by
  induction m generalizing n with
  | nil => rfl
  | cons c r ih =>
    obtain ⟨k, v⟩ := c
    simp only [Memory.risingFrom, Bool.and_eq_true, decide_eq_true_eq] at h
    rw [List.filter_cons]
    split
    · simp only [Memory.risingFrom, Bool.and_eq_true, decide_eq_true_eq]
      exact ⟨h.1, ih h.2⟩
    · exact Memory.risingFrom_mono (ih h.2) (by omega)

theorem Memory.all_insert {m : Memory} {a : Nat} {b : BitVec 8} {p : Host.Cell → Bool} (h : m.all p = true)
    (hb : p (a, b) = true) : (m.insert a b).all p = true := by
  induction m with
  | nil => simp [Memory.insert, hb]
  | cons c r ih =>
    obtain ⟨k, v⟩ := c
    simp only [List.all_cons, Bool.and_eq_true] at h
    simp only [Memory.insert]
    split
    · simp [hb, h.1, h.2]
    · split
      · simp [hb, h.2]
      · simp [h.1, ih h.2]

theorem Memory.all_filter {m : Memory} {p : Host.Cell → Bool} (q : Host.Cell → Bool) (h : m.all p = true) :
    (m.filter q).all p = true := by
  simp only [List.all_eq_true] at h ⊢
  exact fun x hx => h x (List.mem_of_mem_filter hx)

/-- An empty buffer is canonical. -/
theorem Memory.wf_nil (cells : Nat) (u : Option (BitVec 8)) : Memory.wf cells u [] = true := rfl

/-- Every write inside the buffer keeps the canonical form. -/
theorem Memory.wf_write {cells : Nat} {u : Option (BitVec 8)} {m : Memory} {a : Nat} {b : BitVec 8}
    (h : Memory.wf cells u m = true) (ha : a < cells) : Memory.wf cells u (Memory.write u m a b) = true := by
  simp only [Memory.wf, Bool.and_eq_true] at h ⊢
  unfold Memory.write
  split
  · exact ⟨Memory.risingFrom_filter _ h.1, Memory.all_filter _ h.2⟩
  · rename_i hu
    exact ⟨Memory.risingFrom_insert b h.1 (Nat.zero_le a), Memory.all_insert h.2 (by simp [ha, hu])⟩

/-- Every list written inside the buffer keeps the canonical form. -/
theorem Memory.wf_writeList {cells : Nat} {u : Option (BitVec 8)} (bs : List (BitVec 8)) {m : Memory} {a : Nat}
    (h : Memory.wf cells u m = true) (ha : a + bs.length ≤ cells) : Memory.wf cells u (Memory.writeList u m a bs) = true := by
  induction bs generalizing m a with
  | nil => exact h
  | cons b r ih =>
    simp only [List.length_cons] at ha
    exact ih (Memory.wf_write h (by omega)) (by omega)

/-- Forgetting cells keeps the canonical form. -/
theorem Memory.wf_forgetAbove {cells : Nat} {u : Option (BitVec 8)} {m : Memory} (n : Nat)
    (h : Memory.wf cells u m = true) : Memory.wf cells u (m.forgetAbove n) = true := by
  simp only [Memory.wf, Bool.and_eq_true] at h ⊢
  exact ⟨Memory.risingFrom_filter _ h.1, Memory.all_filter _ h.2⟩

theorem Memory.find_below {m : Memory} {n i : Nat} (h : Memory.risingFrom n m = true) (hi : i < n) : m.find i = none := by
  induction m generalizing n with
  | nil => rfl
  | cons c r ih =>
    obtain ⟨k, v⟩ := c
    simp only [Memory.risingFrom, Bool.and_eq_true, decide_eq_true_eq] at h
    simp only [Memory.find]
    rw [if_neg (by omega)]
    exact ih h.2 (by omega)

/-- Outside the buffer nothing is listed. -/
theorem Memory.find_outside {cells : Nat} {u : Option (BitVec 8)} {m : Memory} {i : Nat} (h : Memory.wf cells u m = true)
    (hi : cells ≤ i) : m.find i = none := by
  simp only [Memory.wf, Bool.and_eq_true] at h
  induction m with
  | nil => rfl
  | cons c r ih =>
    obtain ⟨k, v⟩ := c
    have h2 := h.2
    simp only [List.all_cons, Bool.and_eq_true, decide_eq_true_eq] at h2
    have h1 := h.1
    simp only [Memory.risingFrom, Bool.and_eq_true, decide_eq_true_eq] at h1
    simp only [Memory.find]
    rw [if_neg (by omega)]
    exact ih ⟨Memory.risingFrom_mono h1.2 (by omega), h2.2⟩

/-- A buffer that lists nothing is empty. -/
theorem Memory.eq_nil_of_find_none {m : Memory} (h : ∀ i, m.find i = none) : m = [] := by
  cases m with
  | nil => rfl
  | cons c r =>
    obtain ⟨k, v⟩ := c
    have := h k
    simp [Memory.find] at this

theorem Memory.ext_of_rising {m n : Memory} {k : Nat} (hm : Memory.risingFrom k m = true) (hn : Memory.risingFrom k n = true)
    (h : ∀ i, m.find i = n.find i) : m = n := by
  induction m generalizing n k with
  | nil => exact (Memory.eq_nil_of_find_none fun i => (h i).symm).symm
  | cons c r ih =>
    cases n with
    | nil => exact Memory.eq_nil_of_find_none h
    | cons d q =>
      obtain ⟨a, v⟩ := c
      obtain ⟨b, w⟩ := d
      simp only [Memory.risingFrom, Bool.and_eq_true, decide_eq_true_eq] at hm hn
      have hab : a = b := by
        by_contra hne
        rcases Nat.lt_or_gt_of_ne hne with hlt | hlt
        · have := h a
          rw [Memory.find, if_pos rfl, Memory.find, if_neg (by omega), Memory.find_below hn.2 (by omega)] at this
          cases this
        · have := h b
          rw [Memory.find, if_neg (by omega), Memory.find_below hm.2 (by omega), Memory.find, if_pos rfl] at this
          cases this
      subst hab
      have hv : v = w := by
        have := h a
        simpa [Memory.find] using this
      subst hv
      congr 1
      refine ih hm.2 hn.2 fun i => ?_
      by_cases hi : a = i
      · subst hi
        rw [Memory.find_below hm.2 (by omega), Memory.find_below hn.2 (by omega)]
      · have := h i
        simpa [Memory.find, hi] using this

/-- Equal buffers are equal data: two canonical buffers that list the same bytes are the same. -/
theorem Memory.ext_of_find {cells : Nat} {u : Option (BitVec 8)} {m n : Memory} (hm : Memory.wf cells u m = true)
    (hn : Memory.wf cells u n = true) (h : ∀ i, m.find i = n.find i) : m = n := by
  simp only [Memory.wf, Bool.and_eq_true] at hm hn
  exact Memory.ext_of_rising hm.1 hn.1 h

end Sys2Proof.Machine
end

