-- ==== Sys2Proof/Laws/State.lean ====
section
/-! SUPPORT. What each named update of the state does to each field, so that no proof unfolds a record update. -/

namespace Sys2Proof.Machine

/-! ## enterDataMode -/

@[simp] theorem enterDataMode_phase (s : State) : (enterDataMode s).phase = s.phase := rfl
@[simp] theorem enterDataMode_cls (s : State) : (enterDataMode s).cls = s.cls := rfl
@[simp] theorem enterDataMode_inData (s : State) : (enterDataMode s).inData = true := rfl
@[simp] theorem enterDataMode_idx (s : State) : (enterDataMode s).idx = s.idx := rfl
@[simp] theorem enterDataMode_msg (s : State) : (enterDataMode s).msg = s.msg := rfl
@[simp] theorem enterDataMode_address (s : State) : (enterDataMode s).address = s.address := rfl
@[simp] theorem enterDataMode_addressWritten (s : State) : (enterDataMode s).addressWritten = s.addressWritten := rfl
@[simp] theorem enterDataMode_inCount (s : State) : (enterDataMode s).inCount = s.inCount := rfl
@[simp] theorem enterDataMode_outCount (s : State) : (enterDataMode s).outCount = s.outCount := rfl
@[simp] theorem enterDataMode_invIn (s : State) : (enterDataMode s).invIn = s.invIn := rfl
@[simp] theorem enterDataMode_invOut (s : State) : (enterDataMode s).invOut = s.invOut := rfl
@[simp] theorem enterDataMode_countsWritten (s : State) : (enterDataMode s).countsWritten = s.countsWritten := rfl
@[simp] theorem enterDataMode_txDelay (s : State) : (enterDataMode s).txDelay = s.txDelay := rfl
@[simp] theorem enterDataMode_inputBits (s : State) : (enterDataMode s).inputBits = s.inputBits := rfl
@[simp] theorem enterDataMode_outputBits (s : State) : (enterDataMode s).outputBits = s.outputBits := rfl
@[simp] theorem enterDataMode_txLen (s : State) : (enterDataMode s).txLen = s.txLen := rfl
@[simp] theorem enterDataMode_txPos (s : State) : (enterDataMode s).txPos = s.txPos := rfl
@[simp] theorem enterDataMode_rxq (s : State) : (enterDataMode s).rxq = s.rxq := rfl
@[simp] theorem enterDataMode_txlog (s : State) : (enterDataMode s).txlog = s.txlog := rfl
@[simp] theorem enterDataMode_applylog (s : State) : (enterDataMode s).applylog = s.applylog := rfl
@[simp] theorem enterDataMode_returned (s : State) : (enterDataMode s).returned = s.returned := rfl
@[simp] theorem enterDataMode_cfg (s : State) : (enterDataMode s).cfg = s.cfg := rfl
@[simp] theorem enterDataMode_agenda (s : State) : (enterDataMode s).agenda = s.agenda := rfl
@[simp] theorem enterDataMode_sampleq (s : State) : (enterDataMode s).sampleq = s.sampleq := rfl
@[simp] theorem enterDataMode_samplelog (s : State) : (enterDataMode s).samplelog = s.samplelog := rfl
@[simp] theorem enterDataMode_draws (s : State) : (enterDataMode s).draws = s.draws := rfl

/-! ## classify -/

@[simp] theorem classify_phase (c : Classification) (s : State) : (classify c s).phase = s.phase := rfl
@[simp] theorem classify_cls (c : Classification) (s : State) : (classify c s).cls = c := rfl
@[simp] theorem classify_inData (c : Classification) (s : State) : (classify c s).inData = s.inData := rfl
@[simp] theorem classify_idx (c : Classification) (s : State) : (classify c s).idx = s.idx := rfl
@[simp] theorem classify_msg (c : Classification) (s : State) : (classify c s).msg = s.msg := rfl
@[simp] theorem classify_address (c : Classification) (s : State) : (classify c s).address = s.address := rfl
@[simp] theorem classify_addressWritten (c : Classification) (s : State) : (classify c s).addressWritten = s.addressWritten := rfl
@[simp] theorem classify_inCount (c : Classification) (s : State) : (classify c s).inCount = s.inCount := rfl
@[simp] theorem classify_outCount (c : Classification) (s : State) : (classify c s).outCount = s.outCount := rfl
@[simp] theorem classify_invIn (c : Classification) (s : State) : (classify c s).invIn = s.invIn := rfl
@[simp] theorem classify_invOut (c : Classification) (s : State) : (classify c s).invOut = s.invOut := rfl
@[simp] theorem classify_countsWritten (c : Classification) (s : State) : (classify c s).countsWritten = s.countsWritten := rfl
@[simp] theorem classify_txDelay (c : Classification) (s : State) : (classify c s).txDelay = s.txDelay := rfl
@[simp] theorem classify_inputBits (c : Classification) (s : State) : (classify c s).inputBits = s.inputBits := rfl
@[simp] theorem classify_outputBits (c : Classification) (s : State) : (classify c s).outputBits = s.outputBits := rfl
@[simp] theorem classify_txLen (c : Classification) (s : State) : (classify c s).txLen = s.txLen := rfl
@[simp] theorem classify_txPos (c : Classification) (s : State) : (classify c s).txPos = s.txPos := rfl
@[simp] theorem classify_rxq (c : Classification) (s : State) : (classify c s).rxq = s.rxq := rfl
@[simp] theorem classify_txlog (c : Classification) (s : State) : (classify c s).txlog = s.txlog := rfl
@[simp] theorem classify_applylog (c : Classification) (s : State) : (classify c s).applylog = s.applylog := rfl
@[simp] theorem classify_returned (c : Classification) (s : State) : (classify c s).returned = s.returned := rfl
@[simp] theorem classify_cfg (c : Classification) (s : State) : (classify c s).cfg = s.cfg := rfl
@[simp] theorem classify_agenda (c : Classification) (s : State) : (classify c s).agenda = s.agenda := rfl
@[simp] theorem classify_sampleq (c : Classification) (s : State) : (classify c s).sampleq = s.sampleq := rfl
@[simp] theorem classify_samplelog (c : Classification) (s : State) : (classify c s).samplelog = s.samplelog := rfl
@[simp] theorem classify_draws (c : Classification) (s : State) : (classify c s).draws = s.draws := rfl

/-! ## enterFlush -/

@[simp] theorem enterFlush_phase (s : State) : (enterFlush s).phase = .flush := rfl
@[simp] theorem enterFlush_cls (s : State) : (enterFlush s).cls = s.cls := rfl
@[simp] theorem enterFlush_inData (s : State) : (enterFlush s).inData = s.inData := rfl
@[simp] theorem enterFlush_idx (s : State) : (enterFlush s).idx = s.idx := rfl
@[simp] theorem enterFlush_msg (s : State) : (enterFlush s).msg = s.msg := rfl
@[simp] theorem enterFlush_address (s : State) : (enterFlush s).address = s.address := rfl
@[simp] theorem enterFlush_addressWritten (s : State) : (enterFlush s).addressWritten = s.addressWritten := rfl
@[simp] theorem enterFlush_inCount (s : State) : (enterFlush s).inCount = s.inCount := rfl
@[simp] theorem enterFlush_outCount (s : State) : (enterFlush s).outCount = s.outCount := rfl
@[simp] theorem enterFlush_invIn (s : State) : (enterFlush s).invIn = s.invIn := rfl
@[simp] theorem enterFlush_invOut (s : State) : (enterFlush s).invOut = s.invOut := rfl
@[simp] theorem enterFlush_countsWritten (s : State) : (enterFlush s).countsWritten = s.countsWritten := rfl
@[simp] theorem enterFlush_txDelay (s : State) : (enterFlush s).txDelay = s.txDelay := rfl
@[simp] theorem enterFlush_inputBits (s : State) : (enterFlush s).inputBits = s.inputBits := rfl
@[simp] theorem enterFlush_outputBits (s : State) : (enterFlush s).outputBits = s.outputBits := rfl
@[simp] theorem enterFlush_txLen (s : State) : (enterFlush s).txLen = s.txLen := rfl
@[simp] theorem enterFlush_txPos (s : State) : (enterFlush s).txPos = s.txPos := rfl
@[simp] theorem enterFlush_rxq (s : State) : (enterFlush s).rxq = s.rxq := rfl
@[simp] theorem enterFlush_txlog (s : State) : (enterFlush s).txlog = s.txlog := rfl
@[simp] theorem enterFlush_applylog (s : State) : (enterFlush s).applylog = s.applylog := rfl
@[simp] theorem enterFlush_returned (s : State) : (enterFlush s).returned = s.returned := rfl
@[simp] theorem enterFlush_cfg (s : State) : (enterFlush s).cfg = s.cfg := rfl
@[simp] theorem enterFlush_agenda (s : State) : (enterFlush s).agenda = s.agenda := rfl
@[simp] theorem enterFlush_sampleq (s : State) : (enterFlush s).sampleq = s.sampleq := rfl
@[simp] theorem enterFlush_samplelog (s : State) : (enterFlush s).samplelog = s.samplelog := rfl
@[simp] theorem enterFlush_draws (s : State) : (enterFlush s).draws = s.draws := rfl

/-! ## returnFromFlush -/

@[simp] theorem returnFromFlush_phase (s : State) : (returnFromFlush s).phase = .idle := rfl
@[simp] theorem returnFromFlush_cls (s : State) : (returnFromFlush s).cls = s.cls := rfl
@[simp] theorem returnFromFlush_inData (s : State) : (returnFromFlush s).inData = s.inData := rfl
@[simp] theorem returnFromFlush_idx (s : State) : (returnFromFlush s).idx = s.idx := rfl
@[simp] theorem returnFromFlush_msg (s : State) : (returnFromFlush s).msg = s.msg := rfl
@[simp] theorem returnFromFlush_address (s : State) : (returnFromFlush s).address = s.address := rfl
@[simp] theorem returnFromFlush_addressWritten (s : State) : (returnFromFlush s).addressWritten = s.addressWritten := rfl
@[simp] theorem returnFromFlush_inCount (s : State) : (returnFromFlush s).inCount = s.inCount := rfl
@[simp] theorem returnFromFlush_outCount (s : State) : (returnFromFlush s).outCount = s.outCount := rfl
@[simp] theorem returnFromFlush_invIn (s : State) : (returnFromFlush s).invIn = s.invIn := rfl
@[simp] theorem returnFromFlush_invOut (s : State) : (returnFromFlush s).invOut = s.invOut := rfl
@[simp] theorem returnFromFlush_countsWritten (s : State) : (returnFromFlush s).countsWritten = s.countsWritten := rfl
@[simp] theorem returnFromFlush_txDelay (s : State) : (returnFromFlush s).txDelay = s.txDelay := rfl
@[simp] theorem returnFromFlush_inputBits (s : State) : (returnFromFlush s).inputBits = s.inputBits := rfl
@[simp] theorem returnFromFlush_outputBits (s : State) : (returnFromFlush s).outputBits = s.outputBits := rfl
@[simp] theorem returnFromFlush_txLen (s : State) : (returnFromFlush s).txLen = s.txLen := rfl
@[simp] theorem returnFromFlush_txPos (s : State) : (returnFromFlush s).txPos = s.txPos := rfl
@[simp] theorem returnFromFlush_rxq (s : State) : (returnFromFlush s).rxq = s.rxq := rfl
@[simp] theorem returnFromFlush_txlog (s : State) : (returnFromFlush s).txlog = s.txlog := rfl
@[simp] theorem returnFromFlush_applylog (s : State) : (returnFromFlush s).applylog = s.applylog := rfl
@[simp] theorem returnFromFlush_returned (s : State) : (returnFromFlush s).returned = s.returned := rfl
@[simp] theorem returnFromFlush_cfg (s : State) : (returnFromFlush s).cfg = s.cfg := rfl
@[simp] theorem returnFromFlush_agenda (s : State) : (returnFromFlush s).agenda = s.agenda := rfl
@[simp] theorem returnFromFlush_sampleq (s : State) : (returnFromFlush s).sampleq = s.sampleq := rfl
@[simp] theorem returnFromFlush_samplelog (s : State) : (returnFromFlush s).samplelog = s.samplelog := rfl
@[simp] theorem returnFromFlush_draws (s : State) : (returnFromFlush s).draws = s.draws := rfl

/-! ## deliver -/

@[simp] theorem deliver_phase (b : Byte) (s : State) : (deliver b s).phase = s.phase := rfl
@[simp] theorem deliver_cls (b : Byte) (s : State) : (deliver b s).cls = s.cls := rfl
@[simp] theorem deliver_inData (b : Byte) (s : State) : (deliver b s).inData = s.inData := rfl
@[simp] theorem deliver_idx (b : Byte) (s : State) : (deliver b s).idx = s.idx := rfl
@[simp] theorem deliver_msg (b : Byte) (s : State) : (deliver b s).msg = s.msg := rfl
@[simp] theorem deliver_address (b : Byte) (s : State) : (deliver b s).address = s.address := rfl
@[simp] theorem deliver_addressWritten (b : Byte) (s : State) : (deliver b s).addressWritten = s.addressWritten := rfl
@[simp] theorem deliver_inCount (b : Byte) (s : State) : (deliver b s).inCount = s.inCount := rfl
@[simp] theorem deliver_outCount (b : Byte) (s : State) : (deliver b s).outCount = s.outCount := rfl
@[simp] theorem deliver_invIn (b : Byte) (s : State) : (deliver b s).invIn = s.invIn := rfl
@[simp] theorem deliver_invOut (b : Byte) (s : State) : (deliver b s).invOut = s.invOut := rfl
@[simp] theorem deliver_countsWritten (b : Byte) (s : State) : (deliver b s).countsWritten = s.countsWritten := rfl
@[simp] theorem deliver_txDelay (b : Byte) (s : State) : (deliver b s).txDelay = s.txDelay := rfl
@[simp] theorem deliver_inputBits (b : Byte) (s : State) : (deliver b s).inputBits = s.inputBits := rfl
@[simp] theorem deliver_outputBits (b : Byte) (s : State) : (deliver b s).outputBits = s.outputBits := rfl
@[simp] theorem deliver_txLen (b : Byte) (s : State) : (deliver b s).txLen = s.txLen := rfl
@[simp] theorem deliver_txPos (b : Byte) (s : State) : (deliver b s).txPos = s.txPos := rfl
@[simp] theorem deliver_rxq (b : Byte) (s : State) : (deliver b s).rxq = s.rxq ++ [b] := rfl
@[simp] theorem deliver_txlog (b : Byte) (s : State) : (deliver b s).txlog = s.txlog := rfl
@[simp] theorem deliver_applylog (b : Byte) (s : State) : (deliver b s).applylog = s.applylog := rfl
@[simp] theorem deliver_returned (b : Byte) (s : State) : (deliver b s).returned = s.returned := rfl
@[simp] theorem deliver_cfg (b : Byte) (s : State) : (deliver b s).cfg = s.cfg := rfl
@[simp] theorem deliver_agenda (b : Byte) (s : State) : (deliver b s).agenda = s.agenda := rfl
@[simp] theorem deliver_sampleq (b : Byte) (s : State) : (deliver b s).sampleq = s.sampleq := rfl
@[simp] theorem deliver_samplelog (b : Byte) (s : State) : (deliver b s).samplelog = s.samplelog := rfl
@[simp] theorem deliver_draws (b : Byte) (s : State) : (deliver b s).draws = s.draws := rfl

/-! ## txWrite -/

@[simp] theorem txWrite_phase (b : Byte) (s : State) : (txWrite b s).phase = s.phase := rfl
@[simp] theorem txWrite_cls (b : Byte) (s : State) : (txWrite b s).cls = s.cls := rfl
@[simp] theorem txWrite_inData (b : Byte) (s : State) : (txWrite b s).inData = s.inData := rfl
@[simp] theorem txWrite_idx (b : Byte) (s : State) : (txWrite b s).idx = s.idx := rfl
@[simp] theorem txWrite_msg (b : Byte) (s : State) : (txWrite b s).msg = s.msg := rfl
@[simp] theorem txWrite_address (b : Byte) (s : State) : (txWrite b s).address = s.address := rfl
@[simp] theorem txWrite_addressWritten (b : Byte) (s : State) : (txWrite b s).addressWritten = s.addressWritten := rfl
@[simp] theorem txWrite_inCount (b : Byte) (s : State) : (txWrite b s).inCount = s.inCount := rfl
@[simp] theorem txWrite_outCount (b : Byte) (s : State) : (txWrite b s).outCount = s.outCount := rfl
@[simp] theorem txWrite_invIn (b : Byte) (s : State) : (txWrite b s).invIn = s.invIn := rfl
@[simp] theorem txWrite_invOut (b : Byte) (s : State) : (txWrite b s).invOut = s.invOut := rfl
@[simp] theorem txWrite_countsWritten (b : Byte) (s : State) : (txWrite b s).countsWritten = s.countsWritten := rfl
@[simp] theorem txWrite_txDelay (b : Byte) (s : State) : (txWrite b s).txDelay = s.txDelay := rfl
@[simp] theorem txWrite_inputBits (b : Byte) (s : State) : (txWrite b s).inputBits = s.inputBits := rfl
@[simp] theorem txWrite_outputBits (b : Byte) (s : State) : (txWrite b s).outputBits = s.outputBits := rfl
@[simp] theorem txWrite_txLen (b : Byte) (s : State) : (txWrite b s).txLen = s.txLen := rfl
@[simp] theorem txWrite_txPos (b : Byte) (s : State) : (txWrite b s).txPos = s.txPos := rfl
@[simp] theorem txWrite_rxq (b : Byte) (s : State) : (txWrite b s).rxq = if s.cfg.rxSeesOwnTx then s.rxq ++ [b] else s.rxq := rfl
@[simp] theorem txWrite_txlog (b : Byte) (s : State) : (txWrite b s).txlog = s.txlog ++ [.tx b] := rfl
@[simp] theorem txWrite_applylog (b : Byte) (s : State) : (txWrite b s).applylog = s.applylog := rfl
@[simp] theorem txWrite_returned (b : Byte) (s : State) : (txWrite b s).returned = s.returned := rfl
@[simp] theorem txWrite_cfg (b : Byte) (s : State) : (txWrite b s).cfg = s.cfg := rfl
@[simp] theorem txWrite_agenda (b : Byte) (s : State) : (txWrite b s).agenda = s.agenda := rfl
@[simp] theorem txWrite_sampleq (b : Byte) (s : State) : (txWrite b s).sampleq = s.sampleq := rfl
@[simp] theorem txWrite_samplelog (b : Byte) (s : State) : (txWrite b s).samplelog = s.samplelog := rfl
@[simp] theorem txWrite_draws (b : Byte) (s : State) : (txWrite b s).draws = s.draws := rfl

/-! ## applyOutputs -/

@[simp] theorem applyOutputs_phase (bs : List Byte) (s : State) : (applyOutputs bs s).phase = s.phase := rfl
@[simp] theorem applyOutputs_cls (bs : List Byte) (s : State) : (applyOutputs bs s).cls = s.cls := rfl
@[simp] theorem applyOutputs_inData (bs : List Byte) (s : State) : (applyOutputs bs s).inData = s.inData := rfl
@[simp] theorem applyOutputs_idx (bs : List Byte) (s : State) : (applyOutputs bs s).idx = s.idx := rfl
@[simp] theorem applyOutputs_msg (bs : List Byte) (s : State) : (applyOutputs bs s).msg = s.msg := rfl
@[simp] theorem applyOutputs_address (bs : List Byte) (s : State) : (applyOutputs bs s).address = s.address := rfl
@[simp] theorem applyOutputs_addressWritten (bs : List Byte) (s : State) : (applyOutputs bs s).addressWritten = s.addressWritten := rfl
@[simp] theorem applyOutputs_inCount (bs : List Byte) (s : State) : (applyOutputs bs s).inCount = s.inCount := rfl
@[simp] theorem applyOutputs_outCount (bs : List Byte) (s : State) : (applyOutputs bs s).outCount = s.outCount := rfl
@[simp] theorem applyOutputs_invIn (bs : List Byte) (s : State) : (applyOutputs bs s).invIn = s.invIn := rfl
@[simp] theorem applyOutputs_invOut (bs : List Byte) (s : State) : (applyOutputs bs s).invOut = s.invOut := rfl
@[simp] theorem applyOutputs_countsWritten (bs : List Byte) (s : State) : (applyOutputs bs s).countsWritten = s.countsWritten := rfl
@[simp] theorem applyOutputs_txDelay (bs : List Byte) (s : State) : (applyOutputs bs s).txDelay = s.txDelay := rfl
@[simp] theorem applyOutputs_inputBits (bs : List Byte) (s : State) : (applyOutputs bs s).inputBits = s.inputBits := rfl
@[simp] theorem applyOutputs_outputBits (bs : List Byte) (s : State) : (applyOutputs bs s).outputBits = s.outputBits := rfl
@[simp] theorem applyOutputs_txLen (bs : List Byte) (s : State) : (applyOutputs bs s).txLen = s.txLen := rfl
@[simp] theorem applyOutputs_txPos (bs : List Byte) (s : State) : (applyOutputs bs s).txPos = s.txPos := rfl
@[simp] theorem applyOutputs_rxq (bs : List Byte) (s : State) : (applyOutputs bs s).rxq = s.rxq := rfl
@[simp] theorem applyOutputs_txlog (bs : List Byte) (s : State) : (applyOutputs bs s).txlog = s.txlog := rfl
@[simp] theorem applyOutputs_applylog (bs : List Byte) (s : State) : (applyOutputs bs s).applylog = s.applylog ++ [bs] := rfl
@[simp] theorem applyOutputs_returned (bs : List Byte) (s : State) : (applyOutputs bs s).returned = s.returned := rfl
@[simp] theorem applyOutputs_cfg (bs : List Byte) (s : State) : (applyOutputs bs s).cfg = s.cfg := rfl
@[simp] theorem applyOutputs_agenda (bs : List Byte) (s : State) : (applyOutputs bs s).agenda = s.agenda := rfl
@[simp] theorem applyOutputs_sampleq (bs : List Byte) (s : State) : (applyOutputs bs s).sampleq = s.sampleq := rfl
@[simp] theorem applyOutputs_samplelog (bs : List Byte) (s : State) : (applyOutputs bs s).samplelog = s.samplelog := rfl
@[simp] theorem applyOutputs_draws (bs : List Byte) (s : State) : (applyOutputs bs s).draws = s.draws := rfl

/-! ## loopEntry -/

@[simp] theorem loopEntry_phase (s : State) : (loopEntry s).phase = .rdByte := rfl
@[simp] theorem loopEntry_cls (s : State) : (loopEntry s).cls = s.cfg.clsInitial := rfl
@[simp] theorem loopEntry_inData (s : State) : (loopEntry s).inData = false := rfl
@[simp] theorem loopEntry_idx (s : State) : (loopEntry s).idx = 0 := rfl
@[simp] theorem loopEntry_msg (s : State) : (loopEntry s).msg = s.msg := rfl
@[simp] theorem loopEntry_address (s : State) : (loopEntry s).address = s.address := rfl
@[simp] theorem loopEntry_addressWritten (s : State) : (loopEntry s).addressWritten = s.addressWritten := rfl
@[simp] theorem loopEntry_inCount (s : State) : (loopEntry s).inCount = s.inCount := rfl
@[simp] theorem loopEntry_outCount (s : State) : (loopEntry s).outCount = s.outCount := rfl
@[simp] theorem loopEntry_invIn (s : State) : (loopEntry s).invIn = s.invIn := rfl
@[simp] theorem loopEntry_invOut (s : State) : (loopEntry s).invOut = s.invOut := rfl
@[simp] theorem loopEntry_countsWritten (s : State) : (loopEntry s).countsWritten = s.countsWritten := rfl
@[simp] theorem loopEntry_txDelay (s : State) : (loopEntry s).txDelay = s.txDelay := rfl
@[simp] theorem loopEntry_inputBits (s : State) : (loopEntry s).inputBits = s.inputBits := rfl
@[simp] theorem loopEntry_outputBits (s : State) : (loopEntry s).outputBits = s.outputBits := rfl
@[simp] theorem loopEntry_txLen (s : State) : (loopEntry s).txLen = s.txLen := rfl
@[simp] theorem loopEntry_txPos (s : State) : (loopEntry s).txPos = s.txPos := rfl
@[simp] theorem loopEntry_rxq (s : State) : (loopEntry s).rxq = s.rxq := rfl
@[simp] theorem loopEntry_txlog (s : State) : (loopEntry s).txlog = s.txlog := rfl
@[simp] theorem loopEntry_applylog (s : State) : (loopEntry s).applylog = s.applylog := rfl
@[simp] theorem loopEntry_returned (s : State) : (loopEntry s).returned = s.returned := rfl
@[simp] theorem loopEntry_cfg (s : State) : (loopEntry s).cfg = s.cfg := rfl
@[simp] theorem loopEntry_agenda (s : State) : (loopEntry s).agenda = s.agenda := rfl
@[simp] theorem loopEntry_sampleq (s : State) : (loopEntry s).sampleq = s.sampleq := rfl
@[simp] theorem loopEntry_samplelog (s : State) : (loopEntry s).samplelog = s.samplelog := rfl
@[simp] theorem loopEntry_draws (s : State) : (loopEntry s).draws = s.draws := rfl

/-! ## storeSentinel -/

@[simp] theorem storeSentinel_phase (s : State) : (storeSentinel s).phase = s.phase := rfl
@[simp] theorem storeSentinel_cls (s : State) : (storeSentinel s).cls = s.cls := rfl
@[simp] theorem storeSentinel_inData (s : State) : (storeSentinel s).inData = s.inData := rfl
@[simp] theorem storeSentinel_idx (s : State) : (storeSentinel s).idx = s.idx := rfl
@[simp] theorem storeSentinel_msg (s : State) : (storeSentinel s).msg = (Memory.write none s.msg s.idx 0#8).forgetAbove s.idx := rfl
@[simp] theorem storeSentinel_address (s : State) : (storeSentinel s).address = s.address := rfl
@[simp] theorem storeSentinel_addressWritten (s : State) : (storeSentinel s).addressWritten = s.addressWritten := rfl
@[simp] theorem storeSentinel_inCount (s : State) : (storeSentinel s).inCount = s.inCount := rfl
@[simp] theorem storeSentinel_outCount (s : State) : (storeSentinel s).outCount = s.outCount := rfl
@[simp] theorem storeSentinel_invIn (s : State) : (storeSentinel s).invIn = s.invIn := rfl
@[simp] theorem storeSentinel_invOut (s : State) : (storeSentinel s).invOut = s.invOut := rfl
@[simp] theorem storeSentinel_countsWritten (s : State) : (storeSentinel s).countsWritten = s.countsWritten := rfl
@[simp] theorem storeSentinel_txDelay (s : State) : (storeSentinel s).txDelay = s.txDelay := rfl
@[simp] theorem storeSentinel_inputBits (s : State) : (storeSentinel s).inputBits = s.inputBits := rfl
@[simp] theorem storeSentinel_outputBits (s : State) : (storeSentinel s).outputBits = s.outputBits := rfl
@[simp] theorem storeSentinel_txLen (s : State) : (storeSentinel s).txLen = s.txLen := rfl
@[simp] theorem storeSentinel_txPos (s : State) : (storeSentinel s).txPos = s.txPos := rfl
@[simp] theorem storeSentinel_rxq (s : State) : (storeSentinel s).rxq = s.rxq := rfl
@[simp] theorem storeSentinel_txlog (s : State) : (storeSentinel s).txlog = s.txlog := rfl
@[simp] theorem storeSentinel_applylog (s : State) : (storeSentinel s).applylog = s.applylog := rfl
@[simp] theorem storeSentinel_returned (s : State) : (storeSentinel s).returned = s.returned := rfl
@[simp] theorem storeSentinel_cfg (s : State) : (storeSentinel s).cfg = s.cfg := rfl
@[simp] theorem storeSentinel_agenda (s : State) : (storeSentinel s).agenda = s.agenda := rfl
@[simp] theorem storeSentinel_sampleq (s : State) : (storeSentinel s).sampleq = s.sampleq := rfl
@[simp] theorem storeSentinel_samplelog (s : State) : (storeSentinel s).samplelog = s.samplelog := rfl
@[simp] theorem storeSentinel_draws (s : State) : (storeSentinel s).draws = s.draws := rfl

/-! ## drewFromMsg -/

@[simp] theorem drewFromMsg_phase (s : State) : (drewFromMsg s).phase = s.phase := rfl
@[simp] theorem drewFromMsg_cls (s : State) : (drewFromMsg s).cls = s.cls := rfl
@[simp] theorem drewFromMsg_inData (s : State) : (drewFromMsg s).inData = s.inData := rfl
@[simp] theorem drewFromMsg_idx (s : State) : (drewFromMsg s).idx = s.idx := rfl
@[simp] theorem drewFromMsg_msg (s : State) : (drewFromMsg s).msg = s.msg := rfl
@[simp] theorem drewFromMsg_address (s : State) : (drewFromMsg s).address = s.address := rfl
@[simp] theorem drewFromMsg_addressWritten (s : State) : (drewFromMsg s).addressWritten = s.addressWritten := rfl
@[simp] theorem drewFromMsg_inCount (s : State) : (drewFromMsg s).inCount = s.inCount := rfl
@[simp] theorem drewFromMsg_outCount (s : State) : (drewFromMsg s).outCount = s.outCount := rfl
@[simp] theorem drewFromMsg_invIn (s : State) : (drewFromMsg s).invIn = s.invIn := rfl
@[simp] theorem drewFromMsg_invOut (s : State) : (drewFromMsg s).invOut = s.invOut := rfl
@[simp] theorem drewFromMsg_countsWritten (s : State) : (drewFromMsg s).countsWritten = s.countsWritten := rfl
@[simp] theorem drewFromMsg_txDelay (s : State) : (drewFromMsg s).txDelay = s.txDelay := rfl
@[simp] theorem drewFromMsg_inputBits (s : State) : (drewFromMsg s).inputBits = s.inputBits := rfl
@[simp] theorem drewFromMsg_outputBits (s : State) : (drewFromMsg s).outputBits = s.outputBits := rfl
@[simp] theorem drewFromMsg_txLen (s : State) : (drewFromMsg s).txLen = s.txLen := rfl
@[simp] theorem drewFromMsg_txPos (s : State) : (drewFromMsg s).txPos = s.txPos := rfl
@[simp] theorem drewFromMsg_rxq (s : State) : (drewFromMsg s).rxq = s.rxq := rfl
@[simp] theorem drewFromMsg_txlog (s : State) : (drewFromMsg s).txlog = s.txlog := rfl
@[simp] theorem drewFromMsg_applylog (s : State) : (drewFromMsg s).applylog = s.applylog := rfl
@[simp] theorem drewFromMsg_returned (s : State) : (drewFromMsg s).returned = s.returned := rfl
@[simp] theorem drewFromMsg_cfg (s : State) : (drewFromMsg s).cfg = s.cfg := rfl
@[simp] theorem drewFromMsg_agenda (s : State) : (drewFromMsg s).agenda = s.agenda := rfl
@[simp] theorem drewFromMsg_sampleq (s : State) : (drewFromMsg s).sampleq = s.sampleq := rfl
@[simp] theorem drewFromMsg_samplelog (s : State) : (drewFromMsg s).samplelog = s.samplelog := rfl
@[simp] theorem drewFromMsg_draws (s : State) : (drewFromMsg s).draws = s.draws + (s.cfg.msgCap + 1) := rfl

/-! ## sampleInputs -/

@[simp] theorem sampleInputs_phase (s : State) : (sampleInputs s).phase = s.phase := rfl
@[simp] theorem sampleInputs_cls (s : State) : (sampleInputs s).cls = s.cls := rfl
@[simp] theorem sampleInputs_inData (s : State) : (sampleInputs s).inData = s.inData := rfl
@[simp] theorem sampleInputs_idx (s : State) : (sampleInputs s).idx = s.idx := rfl
@[simp] theorem sampleInputs_msg (s : State) : (sampleInputs s).msg = s.msg := rfl
@[simp] theorem sampleInputs_address (s : State) : (sampleInputs s).address = s.address := rfl
@[simp] theorem sampleInputs_addressWritten (s : State) : (sampleInputs s).addressWritten = s.addressWritten := rfl
@[simp] theorem sampleInputs_inCount (s : State) : (sampleInputs s).inCount = s.inCount := rfl
@[simp] theorem sampleInputs_outCount (s : State) : (sampleInputs s).outCount = s.outCount := rfl
@[simp] theorem sampleInputs_invIn (s : State) : (sampleInputs s).invIn = s.invIn := rfl
@[simp] theorem sampleInputs_invOut (s : State) : (sampleInputs s).invOut = s.invOut := rfl
@[simp] theorem sampleInputs_countsWritten (s : State) : (sampleInputs s).countsWritten = s.countsWritten := rfl
@[simp] theorem sampleInputs_txDelay (s : State) : (sampleInputs s).txDelay = s.txDelay := rfl
@[simp] theorem sampleInputs_inputBits (s : State) : (sampleInputs s).inputBits = ioStore s.inputBits (invertIf s.invIn (sampleAnswer s s.inCount)) := rfl
@[simp] theorem sampleInputs_outputBits (s : State) : (sampleInputs s).outputBits = s.outputBits := rfl
@[simp] theorem sampleInputs_txLen (s : State) : (sampleInputs s).txLen = s.txLen := rfl
@[simp] theorem sampleInputs_txPos (s : State) : (sampleInputs s).txPos = s.txPos := rfl
@[simp] theorem sampleInputs_rxq (s : State) : (sampleInputs s).rxq = s.rxq := rfl
@[simp] theorem sampleInputs_txlog (s : State) : (sampleInputs s).txlog = s.txlog := rfl
@[simp] theorem sampleInputs_applylog (s : State) : (sampleInputs s).applylog = s.applylog := rfl
@[simp] theorem sampleInputs_returned (s : State) : (sampleInputs s).returned = s.returned := rfl
@[simp] theorem sampleInputs_cfg (s : State) : (sampleInputs s).cfg = s.cfg := rfl
@[simp] theorem sampleInputs_agenda (s : State) : (sampleInputs s).agenda = s.agenda := rfl
@[simp] theorem sampleInputs_sampleq (s : State) : (sampleInputs s).sampleq = s.sampleq.drop s.inCount := rfl
@[simp] theorem sampleInputs_samplelog (s : State) : (sampleInputs s).samplelog = s.samplelog ++ [s.inCount] := rfl
@[simp] theorem sampleInputs_draws (s : State) : (sampleInputs s).draws = s.draws + (s.inCount - s.sampleq.length) := rfl

/-! ## assemble -/

@[simp] theorem assemble_phase (frame : List Byte) (s : State) : (assemble frame s).phase = .tx := rfl
@[simp] theorem assemble_cls (frame : List Byte) (s : State) : (assemble frame s).cls = s.cls := rfl
@[simp] theorem assemble_inData (frame : List Byte) (s : State) : (assemble frame s).inData = s.inData := rfl
@[simp] theorem assemble_idx (frame : List Byte) (s : State) : (assemble frame s).idx = s.idx := rfl
@[simp] theorem assemble_msg (frame : List Byte) (s : State) : (assemble frame s).msg = msgStore s.msg 0 frame := rfl
@[simp] theorem assemble_address (frame : List Byte) (s : State) : (assemble frame s).address = s.address := rfl
@[simp] theorem assemble_addressWritten (frame : List Byte) (s : State) : (assemble frame s).addressWritten = s.addressWritten := rfl
@[simp] theorem assemble_inCount (frame : List Byte) (s : State) : (assemble frame s).inCount = s.inCount := rfl
@[simp] theorem assemble_outCount (frame : List Byte) (s : State) : (assemble frame s).outCount = s.outCount := rfl
@[simp] theorem assemble_invIn (frame : List Byte) (s : State) : (assemble frame s).invIn = s.invIn := rfl
@[simp] theorem assemble_invOut (frame : List Byte) (s : State) : (assemble frame s).invOut = s.invOut := rfl
@[simp] theorem assemble_countsWritten (frame : List Byte) (s : State) : (assemble frame s).countsWritten = s.countsWritten := rfl
@[simp] theorem assemble_txDelay (frame : List Byte) (s : State) : (assemble frame s).txDelay = s.txDelay := rfl
@[simp] theorem assemble_inputBits (frame : List Byte) (s : State) : (assemble frame s).inputBits = ioStore s.inputBits (List.replicate s.inCount 0#8) := rfl
@[simp] theorem assemble_outputBits (frame : List Byte) (s : State) : (assemble frame s).outputBits = s.outputBits := rfl
@[simp] theorem assemble_txLen (frame : List Byte) (s : State) : (assemble frame s).txLen = frame.length := rfl
@[simp] theorem assemble_txPos (frame : List Byte) (s : State) : (assemble frame s).txPos = 0 := rfl
@[simp] theorem assemble_rxq (frame : List Byte) (s : State) : (assemble frame s).rxq = s.rxq := rfl
@[simp] theorem assemble_txlog (frame : List Byte) (s : State) : (assemble frame s).txlog = s.txlog := rfl
@[simp] theorem assemble_applylog (frame : List Byte) (s : State) : (assemble frame s).applylog = s.applylog := rfl
@[simp] theorem assemble_returned (frame : List Byte) (s : State) : (assemble frame s).returned = s.returned := rfl
@[simp] theorem assemble_cfg (frame : List Byte) (s : State) : (assemble frame s).cfg = s.cfg := rfl
@[simp] theorem assemble_agenda (frame : List Byte) (s : State) : (assemble frame s).agenda = s.agenda := rfl
@[simp] theorem assemble_sampleq (frame : List Byte) (s : State) : (assemble frame s).sampleq = s.sampleq := rfl
@[simp] theorem assemble_samplelog (frame : List Byte) (s : State) : (assemble frame s).samplelog = s.samplelog := rfl
@[simp] theorem assemble_draws (frame : List Byte) (s : State) : (assemble frame s).draws = s.draws := rfl

/-! ## copyOutputs -/

@[simp] theorem copyOutputs_phase (s : State) : (copyOutputs s).phase = s.phase := rfl
@[simp] theorem copyOutputs_cls (s : State) : (copyOutputs s).cls = s.cls := rfl
@[simp] theorem copyOutputs_inData (s : State) : (copyOutputs s).inData = s.inData := rfl
@[simp] theorem copyOutputs_idx (s : State) : (copyOutputs s).idx = s.idx := rfl
@[simp] theorem copyOutputs_msg (s : State) : (copyOutputs s).msg = s.msg := rfl
@[simp] theorem copyOutputs_address (s : State) : (copyOutputs s).address = s.address := rfl
@[simp] theorem copyOutputs_addressWritten (s : State) : (copyOutputs s).addressWritten = s.addressWritten := rfl
@[simp] theorem copyOutputs_inCount (s : State) : (copyOutputs s).inCount = s.inCount := rfl
@[simp] theorem copyOutputs_outCount (s : State) : (copyOutputs s).outCount = s.outCount := rfl
@[simp] theorem copyOutputs_invIn (s : State) : (copyOutputs s).invIn = s.invIn := rfl
@[simp] theorem copyOutputs_invOut (s : State) : (copyOutputs s).invOut = s.invOut := rfl
@[simp] theorem copyOutputs_countsWritten (s : State) : (copyOutputs s).countsWritten = s.countsWritten := rfl
@[simp] theorem copyOutputs_txDelay (s : State) : (copyOutputs s).txDelay = s.txDelay := rfl
@[simp] theorem copyOutputs_inputBits (s : State) : (copyOutputs s).inputBits = s.inputBits := rfl
@[simp] theorem copyOutputs_outputBits (s : State) : (copyOutputs s).outputBits = ioStore s.outputBits (invertIf s.invOut (msgBytes s s.outCount)) := rfl
@[simp] theorem copyOutputs_txLen (s : State) : (copyOutputs s).txLen = s.txLen := rfl
@[simp] theorem copyOutputs_txPos (s : State) : (copyOutputs s).txPos = s.txPos := rfl
@[simp] theorem copyOutputs_rxq (s : State) : (copyOutputs s).rxq = s.rxq := rfl
@[simp] theorem copyOutputs_txlog (s : State) : (copyOutputs s).txlog = s.txlog := rfl
@[simp] theorem copyOutputs_applylog (s : State) : (copyOutputs s).applylog = s.applylog := rfl
@[simp] theorem copyOutputs_returned (s : State) : (copyOutputs s).returned = s.returned := rfl
@[simp] theorem copyOutputs_cfg (s : State) : (copyOutputs s).cfg = s.cfg := rfl
@[simp] theorem copyOutputs_agenda (s : State) : (copyOutputs s).agenda = s.agenda := rfl
@[simp] theorem copyOutputs_sampleq (s : State) : (copyOutputs s).sampleq = s.sampleq := rfl
@[simp] theorem copyOutputs_samplelog (s : State) : (copyOutputs s).samplelog = s.samplelog := rfl
@[simp] theorem copyOutputs_draws (s : State) : (copyOutputs s).draws = s.draws + (s.cfg.msgCap + 1) := rfl

/-! ## engineReset -/

@[simp] theorem engineReset_phase (s : State) : (engineReset s).phase = .idle := rfl
@[simp] theorem engineReset_cls (s : State) : (engineReset s).cls = .none := rfl
@[simp] theorem engineReset_inData (s : State) : (engineReset s).inData = false := rfl
@[simp] theorem engineReset_idx (s : State) : (engineReset s).idx = 0 := rfl
@[simp] theorem engineReset_msg (s : State) : (engineReset s).msg = [] := rfl
@[simp] theorem engineReset_address (s : State) : (engineReset s).address = 0 := rfl
@[simp] theorem engineReset_addressWritten (s : State) : (engineReset s).addressWritten = false := rfl
@[simp] theorem engineReset_inCount (s : State) : (engineReset s).inCount = 0 := rfl
@[simp] theorem engineReset_outCount (s : State) : (engineReset s).outCount = 0 := rfl
@[simp] theorem engineReset_invIn (s : State) : (engineReset s).invIn = false := rfl
@[simp] theorem engineReset_invOut (s : State) : (engineReset s).invOut = false := rfl
@[simp] theorem engineReset_countsWritten (s : State) : (engineReset s).countsWritten = false := rfl
@[simp] theorem engineReset_txDelay (s : State) : (engineReset s).txDelay = 0 := rfl
@[simp] theorem engineReset_inputBits (s : State) : (engineReset s).inputBits = [] := rfl
@[simp] theorem engineReset_outputBits (s : State) : (engineReset s).outputBits = [] := rfl
@[simp] theorem engineReset_txLen (s : State) : (engineReset s).txLen = 0 := rfl
@[simp] theorem engineReset_txPos (s : State) : (engineReset s).txPos = 0 := rfl
@[simp] theorem engineReset_rxq (s : State) : (engineReset s).rxq = s.rxq := rfl
@[simp] theorem engineReset_txlog (s : State) : (engineReset s).txlog = s.txlog := rfl
@[simp] theorem engineReset_applylog (s : State) : (engineReset s).applylog = s.applylog := rfl
@[simp] theorem engineReset_returned (s : State) : (engineReset s).returned = none := rfl
@[simp] theorem engineReset_cfg (s : State) : (engineReset s).cfg = s.cfg := rfl
@[simp] theorem engineReset_agenda (s : State) : (engineReset s).agenda = s.agenda := rfl
@[simp] theorem engineReset_sampleq (s : State) : (engineReset s).sampleq = s.sampleq := rfl
@[simp] theorem engineReset_samplelog (s : State) : (engineReset s).samplelog = s.samplelog := rfl
@[simp] theorem engineReset_draws (s : State) : (engineReset s).draws = s.draws := rfl

/-! ## pace, advanceTx, roleTagHook -/

/-- "Both branches do nothing" (R133). -/
@[simp] theorem roleTagHook_eq (s : State) : roleTagHook s = s := by unfold roleTagHook; split <;> rfl

@[simp] theorem pace_txlog (s : State) :
    (pace s).txlog = if s.txDelay = 0 then s.txlog else s.txlog ++ [.pace s.txDelay] := by unfold pace; split <;> rfl
@[simp] theorem pace_phase (s : State) : (pace s).phase = s.phase := by unfold pace; split <;> rfl
@[simp] theorem pace_cls (s : State) : (pace s).cls = s.cls := by unfold pace; split <;> rfl
@[simp] theorem pace_inData (s : State) : (pace s).inData = s.inData := by unfold pace; split <;> rfl
@[simp] theorem pace_idx (s : State) : (pace s).idx = s.idx := by unfold pace; split <;> rfl
@[simp] theorem pace_msg (s : State) : (pace s).msg = s.msg := by unfold pace; split <;> rfl
@[simp] theorem pace_address (s : State) : (pace s).address = s.address := by unfold pace; split <;> rfl
@[simp] theorem pace_addressWritten (s : State) : (pace s).addressWritten = s.addressWritten := by unfold pace; split <;> rfl
@[simp] theorem pace_inCount (s : State) : (pace s).inCount = s.inCount := by unfold pace; split <;> rfl
@[simp] theorem pace_outCount (s : State) : (pace s).outCount = s.outCount := by unfold pace; split <;> rfl
@[simp] theorem pace_invIn (s : State) : (pace s).invIn = s.invIn := by unfold pace; split <;> rfl
@[simp] theorem pace_invOut (s : State) : (pace s).invOut = s.invOut := by unfold pace; split <;> rfl
@[simp] theorem pace_countsWritten (s : State) : (pace s).countsWritten = s.countsWritten := by unfold pace; split <;> rfl
@[simp] theorem pace_txDelay (s : State) : (pace s).txDelay = s.txDelay := by unfold pace; split <;> rfl
@[simp] theorem pace_inputBits (s : State) : (pace s).inputBits = s.inputBits := by unfold pace; split <;> rfl
@[simp] theorem pace_outputBits (s : State) : (pace s).outputBits = s.outputBits := by unfold pace; split <;> rfl
@[simp] theorem pace_txLen (s : State) : (pace s).txLen = s.txLen := by unfold pace; split <;> rfl
@[simp] theorem pace_txPos (s : State) : (pace s).txPos = s.txPos := by unfold pace; split <;> rfl
@[simp] theorem pace_rxq (s : State) : (pace s).rxq = s.rxq := by unfold pace; split <;> rfl
@[simp] theorem pace_applylog (s : State) : (pace s).applylog = s.applylog := by unfold pace; split <;> rfl
@[simp] theorem pace_returned (s : State) : (pace s).returned = s.returned := by unfold pace; split <;> rfl
@[simp] theorem pace_cfg (s : State) : (pace s).cfg = s.cfg := by unfold pace; split <;> rfl
@[simp] theorem pace_agenda (s : State) : (pace s).agenda = s.agenda := by unfold pace; split <;> rfl
@[simp] theorem pace_sampleq (s : State) : (pace s).sampleq = s.sampleq := by unfold pace; split <;> rfl
@[simp] theorem pace_samplelog (s : State) : (pace s).samplelog = s.samplelog := by unfold pace; split <;> rfl
@[simp] theorem pace_draws (s : State) : (pace s).draws = s.draws := by unfold pace; split <;> rfl

@[simp] theorem advanceTx_phase (s : State) :
    (advanceTx s).phase = if s.txPos = s.txLen then .idle else .tx := by unfold advanceTx; split <;> rfl
@[simp] theorem advanceTx_cls (s : State) : (advanceTx s).cls = s.cls := by unfold advanceTx; split <;> rfl
@[simp] theorem advanceTx_inData (s : State) : (advanceTx s).inData = s.inData := by unfold advanceTx; split <;> rfl
@[simp] theorem advanceTx_idx (s : State) : (advanceTx s).idx = s.idx := by unfold advanceTx; split <;> rfl
@[simp] theorem advanceTx_msg (s : State) : (advanceTx s).msg = s.msg := by unfold advanceTx; split <;> rfl
@[simp] theorem advanceTx_address (s : State) : (advanceTx s).address = s.address := by unfold advanceTx; split <;> rfl
@[simp] theorem advanceTx_addressWritten (s : State) : (advanceTx s).addressWritten = s.addressWritten := by unfold advanceTx; split <;> rfl
@[simp] theorem advanceTx_inCount (s : State) : (advanceTx s).inCount = s.inCount := by unfold advanceTx; split <;> rfl
@[simp] theorem advanceTx_outCount (s : State) : (advanceTx s).outCount = s.outCount := by unfold advanceTx; split <;> rfl
@[simp] theorem advanceTx_invIn (s : State) : (advanceTx s).invIn = s.invIn := by unfold advanceTx; split <;> rfl
@[simp] theorem advanceTx_invOut (s : State) : (advanceTx s).invOut = s.invOut := by unfold advanceTx; split <;> rfl
@[simp] theorem advanceTx_countsWritten (s : State) : (advanceTx s).countsWritten = s.countsWritten := by unfold advanceTx; split <;> rfl
@[simp] theorem advanceTx_txDelay (s : State) : (advanceTx s).txDelay = s.txDelay := by unfold advanceTx; split <;> rfl
@[simp] theorem advanceTx_inputBits (s : State) : (advanceTx s).inputBits = s.inputBits := by unfold advanceTx; split <;> rfl
@[simp] theorem advanceTx_outputBits (s : State) : (advanceTx s).outputBits = s.outputBits := by unfold advanceTx; split <;> rfl
@[simp] theorem advanceTx_txLen (s : State) : (advanceTx s).txLen = s.txLen := by unfold advanceTx; split <;> rfl
@[simp] theorem advanceTx_txPos (s : State) : (advanceTx s).txPos = s.txPos := by unfold advanceTx; split <;> rfl
@[simp] theorem advanceTx_rxq (s : State) : (advanceTx s).rxq = s.rxq := by unfold advanceTx; split <;> rfl
@[simp] theorem advanceTx_txlog (s : State) : (advanceTx s).txlog = s.txlog := by unfold advanceTx; split <;> rfl
@[simp] theorem advanceTx_applylog (s : State) : (advanceTx s).applylog = s.applylog := by unfold advanceTx; split <;> rfl
@[simp] theorem advanceTx_returned (s : State) : (advanceTx s).returned = s.returned := by unfold advanceTx; split <;> rfl
@[simp] theorem advanceTx_cfg (s : State) : (advanceTx s).cfg = s.cfg := by unfold advanceTx; split <;> rfl
@[simp] theorem advanceTx_agenda (s : State) : (advanceTx s).agenda = s.agenda := by unfold advanceTx; split <;> rfl
@[simp] theorem advanceTx_sampleq (s : State) : (advanceTx s).sampleq = s.sampleq := by unfold advanceTx; split <;> rfl
@[simp] theorem advanceTx_samplelog (s : State) : (advanceTx s).samplelog = s.samplelog := by unfold advanceTx; split <;> rfl
@[simp] theorem advanceTx_draws (s : State) : (advanceTx s).draws = s.draws := by unfold advanceTx; split <;> rfl

/-! ## The environment of a decoding -/

@[simp] theorem State.env_cfg (s : State) : s.env.cfg = s.cfg := rfl

@[simp] theorem State.env_address (s : State) : s.env.address = s.address := rfl

end Sys2Proof.Machine
end

