-- ==== Sys2Proof/Laws/Ops.lean ====
section
/-! SUPPORT. One lemma per shared operation that says once everything it can do; callers cite it and never unfold the
operation. -/

namespace Sys2Proof.Machine

/-! ## Primitives -/

theorem rxRead_nil {s : State} (h : s.rxq = []) : rxRead s = none := by simp [rxRead, h]

theorem rxRead_cons {s : State} {b : Byte} {r : List Byte} (h : s.rxq = b :: r) :
    rxRead s = some (b, { s with rxq := r }) := by simp [rxRead, h]

theorem rxAvail_eq_zero {s : State} : rxAvail s = 0 ↔ s.rxq = [] := by simp [rxAvail]

@[simp] theorem delayOf_mod_ten (hi lo : Byte) : delayOf hi lo % 10 = 0 := by simp [delayOf]

theorem delayOf_le (hi lo : Byte) : delayOf hi lo ≤ 655350 := by
  have h1 := hi.isLt
  have h2 := lo.isLt
  simp only [delayOf, Config.delayScale]
  omega

theorem clampAddress_le (a : Byte) : clampAddress a ≤ 64 := by
  simp only [clampAddress, Config.addrMax]
  split <;> omega

@[simp] theorem sampleAnswer_length (s : State) (n : Nat) : (sampleAnswer s n).length = n := by
  simp only [sampleAnswer, List.length_append, List.length_take, List.length_map, List.length_range]
  omega

@[simp] theorem invertIf_length (f : Bool) (bs : List Byte) : (invertIf f bs).length = bs.length := by
  cases f <;> simp [invertIf]

@[simp] theorem msgBytes_length (s : State) (n : Nat) : (msgBytes s n).length = n := by simp [msgBytes]

@[simp] theorem ioBytes_length (m : Memory) (n : Nat) : (ioBytes m n).length = n := by simp [ioBytes]

/-- The bytes stored from index 0 on are the bytes read back. -/
@[simp] theorem ioBytes_ioStore (m : Memory) (bs : List Byte) : ioBytes (ioStore m bs) bs.length = bs := by
  apply List.ext_getElem
  · simp
  · intro k h1 h2
    have := Memory.read_writeList 0#8 bs m 0 k h2
    simpa [ioBytes, ioStore, ioByte] using this

/-- A cell past the stored bytes reads as before. -/
theorem ioByte_ioStore_other (m : Memory) (bs : List Byte) {i : Nat} (h : bs.length ≤ i) :
    ioByte (ioStore m bs) i = ioByte m i := by
  simp [ioByte, ioStore, Memory.find_writeList_other (some 0#8) bs m 0 i (by omega)]

theorem wf_ioStore {cells : Nat} {m : Memory} {bs : List Byte} (h : Memory.wf cells (some 0#8) m = true)
    (hb : bs.length ≤ cells) : Memory.wf cells (some 0#8) (ioStore m bs) = true :=
  Memory.wf_writeList bs h (by omega)

theorem wf_msgStore {cells : Nat} {m : Memory} {bs : List Byte} {a : Nat} (h : Memory.wf cells none m = true)
    (hb : a + bs.length ≤ cells) : Memory.wf cells none (msgStore m a bs) = true :=
  Memory.wf_writeList bs h hb

/-! ## The escape codec -/

theorem escape_length_le (c : Config) (p : List Byte) : (escape c p).length ≤ 2 * p.length := by
  induction p with
  | nil => simp [escape]
  | cons v r ih =>
    simp only [escape]
    split <;> simp only [List.length_cons] <;> omega

theorem le_escape_length (c : Config) (p : List Byte) : p.length ≤ (escape c p).length := by
  induction p with
  | nil => simp [escape]
  | cons v r ih =>
    simp only [escape]
    split <;> simp only [List.length_cons] <;> omega

theorem frameBytes_length (c : Config) (a t : Byte) (p : List Byte) :
    (frameBytes c a t p).length = 6 + (escape c p).length := by
  simp [frameBytes, frameHeader]
  omega

theorem responseBytes_length_le (s : State) (bs : List Byte) : (responseBytes s bs).length ≤ 6 + 2 * bs.length := by
  have := escape_length_le s.cfg bs
  simp only [responseBytes, frameBytes_length]
  omega

/-! ## Build and the reactions -/

/-- Everything Build does. -/
theorem build_next {s t : State} (h : build s = .next t) :
    (responseBytes s (ioBytes s.inputBits s.inCount)).length ≤ s.cfg.msgCap + 1 ∧
    t = assemble (responseBytes s (ioBytes s.inputBits s.inCount)) s := by
  unfold build at h
  split at h
  · exact ⟨‹_›, by simpa using h.symm⟩
  · cases h

/-- Build cannot overrun under admissible parameters and a bounded count (R155). -/
theorem build_completes {s : State} (h : 6 + 2 * s.inCount ≤ s.cfg.msgCap) : ∃ t, build s = .next t := by
  have := responseBytes_length_le s (ioBytes s.inputBits s.inCount)
  simp only [ioBytes_length] at this
  unfold build
  rw [if_pos (by omega)]
  exact ⟨_, rfl⟩

/-- *initialize* completes under admissible parameters (R132). -/
theorem reactInit_completes {s : State} (h : s.cfg.initDelayOffset + 1 ≤ s.cfg.msgCap) :
    reactInit s = .next { drewFromMsg s with
      txDelay := delayOf (msgByte s s.cfg.initDelayOffset) (msgByte s (s.cfg.initDelayOffset + 1))
      phase := .idle } := by
  unfold reactInit
  rw [if_pos h, roleTagHook_eq]

/-- *transmit* completes when the count is bounded (R135). -/
theorem reactTransmit_completes {s : State} (h1 : s.outCount ≤ s.cfg.ioCap) (h2 : s.outCount ≤ s.cfg.msgCap + 1) :
    reactTransmit s =
      .next { applyOutputs (ioBytes (copyOutputs s).outputBits s.outCount) (copyOutputs s) with phase := .idle } := by
  unfold reactTransmit
  rw [if_pos h1, if_pos h2]

/-- *poll* is sampling and Build when the count is bounded (R134). -/
theorem reactPoll_builds {s : State} (h : s.inCount ≤ s.cfg.ioCap) : reactPoll s = build (sampleInputs s) := by
  unfold reactPoll
  rw [if_pos h]

/-- Everything a reaction does: one case per classification (R130). -/
theorem react_next {s t : State} (h : react s = .next t) :
    (s.cls = .none ∧ t = { s with phase := .idle }) ∨
    (s.cls = .init ∧ s.cfg.initDelayOffset + 1 ≤ s.cfg.msgCap ∧
      t = { drewFromMsg s with
        txDelay := delayOf (msgByte s s.cfg.initDelayOffset) (msgByte s (s.cfg.initDelayOffset + 1))
        phase := .idle }) ∨
    (s.cls = .poll ∧ s.inCount ≤ s.cfg.ioCap ∧ build (sampleInputs s) = .next t) ∨
    (s.cls = .transmit ∧ s.outCount ≤ s.cfg.ioCap ∧ s.outCount ≤ s.cfg.msgCap + 1 ∧
      t = { applyOutputs (ioBytes (copyOutputs s).outputBits s.outCount) (copyOutputs s) with phase := .idle }) ∨
    ((s.cls = .read ∨ s.cls = .error ∨ s.cls = .ignore) ∧ t = { s with phase := .flush }) := by
  unfold react at h
  split at h <;> rename_i hc
  · exact .inl ⟨hc, by simpa [reactNone] using h.symm⟩
  · right; left
    simp only [reactInit] at h
    split at h
    · exact ⟨hc, ‹_›, by simpa using h.symm⟩
    · cases h
  · right; right; left
    simp only [reactPoll] at h
    split at h
    · exact ⟨hc, ‹_›, h⟩
    · cases h
  · right; right; right; left
    simp only [reactTransmit] at h
    split at h
    · split at h
      · exact ⟨hc, ‹_›, ‹_›, by simpa using h.symm⟩
      · cases h
    · cases h
  · exact .inr (.inr (.inr (.inr ⟨.inl hc, by simpa [reactRead, enterFlush] using h.symm⟩)))
  · exact .inr (.inr (.inr (.inr ⟨.inr (.inl hc), by simpa [reactError, enterFlush] using h.symm⟩)))
  · exact .inr (.inr (.inr (.inr ⟨.inr (.inr hc), by simpa [reactIgnore, enterFlush] using h.symm⟩)))

/-! ## Terminate, the error entry, Append -/

/-- Terminate writes the sentinel and reacts (R113). -/
theorem terminate_next {s t : State} (h : terminate s = .next t) :
    s.idx ≤ s.cfg.msgCap ∧ react (storeSentinel s) = .next t := by
  unfold terminate at h
  split at h
  · exact ⟨‹_›, h⟩
  · cases h

/-- Taking an error enters the flush, the sentinel written (R189). -/
theorem raiseClass_flushes {c : Classification} {s : State} (hc : c = .read ∨ c = .error ∨ c = .ignore)
    (h : s.idx ≤ s.cfg.msgCap) :
    raiseClass c s = .next { storeSentinel s with cls := c, phase := .flush } := by
  unfold raiseClass terminate
  rw [if_pos (by simpa using h)]
  rcases hc with rfl | rfl | rfl <;> rfl

theorem raiseClass_next {c : Classification} {s t : State} (hc : c = .read ∨ c = .error ∨ c = .ignore)
    (h : raiseClass c s = .next t) :
    s.idx ≤ s.cfg.msgCap ∧ t = { storeSentinel s with cls := c, phase := .flush } := by
  have h1 := (terminate_next h).1
  have h2 : s.idx ≤ s.cfg.msgCap := by simpa using h1
  rw [raiseClass_flushes hc h2] at h
  exact ⟨h2, by simpa using h.symm⟩

theorem terminate_runs {s : State} (h : s.idx ≤ s.cfg.msgCap) : terminate s = react (storeSentinel s) := by
  unfold terminate
  rw [if_pos h]

theorem append_fits {b : Byte} {s : State} (h : s.idx < s.cfg.msgCap) :
    append b s = .next { s with msg := Memory.write none s.msg s.idx b, idx := s.idx + 1 } := by
  unfold append
  rw [if_pos h]

theorem append_overruns {b : Byte} {s : State} (h : s.idx = s.cfg.msgCap) :
    append b s = .next { storeSentinel s with cls := .error, phase := .flush } := by
  unfold append
  rw [if_neg (by omega)]
  exact raiseClass_flushes (.inr (.inl rfl)) (by omega)

/-- Append stores the byte, or takes the overrun (R112). -/
theorem append_next {b : Byte} {s t : State} (h : append b s = .next t) :
    (s.idx < s.cfg.msgCap ∧ t = { s with msg := Memory.write none s.msg s.idx b, idx := s.idx + 1 }) ∨
    (s.idx = s.cfg.msgCap ∧ t = { storeSentinel s with cls := .error, phase := .flush }) := by
  unfold append at h
  split at h
  · exact .inl ⟨‹_›, by simpa using h.symm⟩
  · obtain ⟨h1, h2⟩ := raiseClass_next (.inr (.inl rfl)) h
    exact .inr ⟨by omega, h2⟩

/-- What the sentinel's writing leaves in `msg`. -/
theorem find_storeSentinel (s : State) (i : Nat) :
    (storeSentinel s).msg.find i = if i < s.idx then s.msg.find i else if i = s.idx then some 0#8 else none := by
  rw [storeSentinel_msg, Memory.find_forgetAbove, Memory.find_write]
  by_cases h1 : i < s.idx
  · simp [h1, Nat.le_of_lt h1, Nat.ne_of_lt h1]
  · by_cases h2 : i = s.idx
    · simp [h2]
    · simp [h1, h2, show ¬ i ≤ s.idx by omega]

/-- The same after a whole payload was stored: the payload, then the sentinel. -/
theorem find_storeSentinel_payload (m : Memory) (p : List Byte) {s : State} (hm : s.msg = msgStore m 0 p)
    (hi : s.idx = p.length) (i : Nat) : (storeSentinel s).msg.find i = (p ++ [0#8])[i]? := by
  rw [find_storeSentinel, hm, hi]
  by_cases h1 : i < p.length
  · have := Memory.find_writeList_none p m 0 i h1
    rw [if_pos h1, List.getElem?_append_left h1, List.getElem?_eq_getElem h1]
    simpa [msgStore] using this
  · rw [if_neg h1, List.getElem?_append_right (by omega)]
    by_cases h2 : i = p.length
    · simp [h2]
    · rw [if_neg h2, List.getElem?_eq_none (by simp; omega)]

/-! ## Invocation and the frame grain -/

/-- An invocation runs only in IDLE and configured (R174, R175). -/
theorem invocation_next {s t : State} {k : State → Result} (h : invocation s k = .next t) :
    s.phase = .idle ∧ s.addressWritten = true ∧ s.countsWritten = true ∧ k s = .next t := by
  unfold invocation at h
  split at h
  · split at h
    · rename_i h1 h2
      simp only [Bool.and_eq_true] at h2
      exact ⟨h1, h2.1, h2.2, h⟩
    · cases h
  · cases h

theorem invocation_runs {s : State} (k : State → Result) (h1 : s.phase = .idle) (h2 : s.addressWritten = true)
    (h3 : s.countsWritten = true) : invocation s k = k s := by
  simp [invocation, h1, h2, h3]

/-- What the parse of a whole frame leaves to Terminate, the payload fitting. -/
theorem parseFrame_fits {c : Classification} {p : List Byte} {s : State} (h : p.length ≤ s.cfg.msgCap) :
    parseFrame c p s = terminate { s with
      msg := msgStore s.msg 0 p, idx := p.length, inData := true, cls := c, phase := .rdByte } := by
  simp only [parseFrame, if_pos h]
  rfl

/-- An overlong payload ends in the flush, the rest of the frame still in `rxq` (R112, R116). -/
theorem parseFrame_overruns {c : Classification} {p : List Byte} {s : State} (h : s.cfg.msgCap < p.length) :
    parseFrame c p s = .next { s with
      msg := (Memory.write none (msgStore s.msg 0 (p.take s.cfg.msgCap)) s.cfg.msgCap 0#8).forgetAbove s.cfg.msgCap
      idx := s.cfg.msgCap
      inData := true
      cls := .error
      phase := .flush
      rxq := escape s.cfg (p.drop (s.cfg.msgCap + 1)) ++ [s.cfg.etx] ++ s.rxq } := by
  simp only [parseFrame, if_neg (Nat.not_le_of_lt h)]
  rw [raiseClass_flushes (.inr (.inl rfl)) (Nat.le_refl _)]
  rfl

/-- A frame that ends in its header leaves an empty parse behind and enters the flush (R105, R106). -/
theorem parseHeader_flushes {c : Classification} (hc : c = .read ∨ c = .error ∨ c = .ignore) (s : State) :
    parseHeader c s = .next { s with
      msg := (Memory.write none s.msg 0 0#8).forgetAbove 0
      idx := 0
      inData := true
      cls := c
      phase := .flush } := by
  simp only [parseHeader]
  rw [raiseClass_flushes hc (by simp)]
  rfl

end Sys2Proof.Machine
end

