-- ==== Sys2Proof/Laws/PerInstr.lean ====
section
/-! SUPPORT. Statements made of every instruction, one lemma per constructor: the code an instruction is encoded by is one that a
table of spec/30_encoding.md (R72, R85, R92) has a row for. -/

namespace Sys2Proof.Laws

/-- The forms the tables admit: a byte only in a phase that reads one (R85), no byte only in FLUSH and TX (R85), a call (R92), a
frame of at least preamble, start marker and address (R72). -/
def admitted : Code → Bool
  | .byte p _ => p != .idle && p != .tx
  | .noByte p => p == .flush || p == .tx
  | .call _ => true
  | .frame bs => decide (4 ≤ bs.length)

/-- What is stated of each instruction: its encoding has a form the tables admit. -/
def EncodingHasARow.Statement (i : Instr) : Prop := ∀ c : Config, admitted (encode c i) = true

theorem admitted_frame (c : Config) (a t : Byte) (p : List Byte) : admitted (.frame (frameBytes c a t p)) = true := by
  simp [admitted, frameBytes, frameHeader]

theorem EncodingHasARow.stx : EncodingHasARow.Statement .stx := fun _ => rfl
theorem EncodingHasARow.etx : EncodingHasARow.Statement .etx := fun _ => rfl
theorem EncodingHasARow.dle : EncodingHasARow.Statement .dle := fun _ => rfl
theorem EncodingHasARow.syn : EncodingHasARow.Statement .syn := fun _ => rfl
theorem EncodingHasARow.data (b : Byte) : EncodingHasARow.Statement (.data b) := fun _ => rfl
theorem EncodingHasARow.addrMatch (b : Byte) : EncodingHasARow.Statement (.addrMatch b) := fun _ => rfl
theorem EncodingHasARow.addrForeign (b : Byte) : EncodingHasARow.Statement (.addrForeign b) := fun _ => rfl
theorem EncodingHasARow.typeI : EncodingHasARow.Statement .typeI := fun _ => rfl
theorem EncodingHasARow.typeP : EncodingHasARow.Statement .typeP := fun _ => rfl
theorem EncodingHasARow.typeR : EncodingHasARow.Statement .typeR := fun _ => rfl
theorem EncodingHasARow.typeT : EncodingHasARow.Statement .typeT := fun _ => rfl
theorem EncodingHasARow.typeBad (b : Byte) : EncodingHasARow.Statement (.typeBad b) := fun _ => rfl
theorem EncodingHasARow.escLit (b : Byte) : EncodingHasARow.Statement (.escLit b) := fun _ => rfl
theorem EncodingHasARow.flEnd : EncodingHasARow.Statement .flEnd := fun _ => rfl
theorem EncodingHasARow.flSkip (b : Byte) : EncodingHasARow.Statement (.flSkip b) := fun _ => rfl
theorem EncodingHasARow.flEmpty : EncodingHasARow.Statement .flEmpty := fun _ => rfl
theorem EncodingHasARow.tx : EncodingHasARow.Statement .tx := fun _ => rfl
theorem EncodingHasARow.invoke : EncodingHasARow.Statement .invoke := fun _ => rfl
theorem EncodingHasARow.setAddress (a : Byte) : EncodingHasARow.Statement (.setAddress a) := fun _ => rfl
theorem EncodingHasARow.configure (ic oc : Nat) (ii io : Bool) : EncodingHasARow.Statement (.configure ic oc ii io) := fun _ => rfl
theorem EncodingHasARow.frameI (a : Byte) (p : List Byte) : EncodingHasARow.Statement (.frameI a p) :=
  fun c => admitted_frame c a Config.letterI p
theorem EncodingHasARow.frameP (a : Byte) (p : List Byte) : EncodingHasARow.Statement (.frameP a p) :=
  fun c => admitted_frame c a Config.letterP p
theorem EncodingHasARow.frameR (a : Byte) (p : List Byte) : EncodingHasARow.Statement (.frameR a p) :=
  fun c => admitted_frame c a Config.letterR p
theorem EncodingHasARow.frameT (a : Byte) (p : List Byte) : EncodingHasARow.Statement (.frameT a p) :=
  fun c => admitted_frame c a Config.letterT p
theorem EncodingHasARow.frameBadtype (a t : Byte) : EncodingHasARow.Statement (.frameBadtype a t) := fun _ => rfl
theorem EncodingHasARow.frameForeign (a : Byte) : EncodingHasARow.Statement (.frameForeign a) := fun _ => rfl

end Sys2Proof.Laws
end

