-- ==== Sys2Proof/Laws/Step.lean ====
section
/-! SUPPORT. What a decoding, a fetch and a step can do, said once; later proofs cite these and unfold neither. -/

namespace Sys2Proof.Machine

/-! ## Decoding in a phase -/

theorem decode_byte_isOk {e : Env} {p : Phase} (hp : p ≠ .idle ∧ p ≠ .tx) (b : Byte) :
    ∃ i, decode e (.byte p b) = .ok i := by
  cases p <;> first | exact absurd rfl hp.1 | exact absurd rfl hp.2 | exact ⟨_, rfl⟩

/-- A code that decodes is fetched as its instruction. -/
theorem fetchCode_ok {c : Code} {s : State} {i : Instr} (h : decode s.env c = .ok i) : fetchCode c s = .run i s := by
  simp [fetchCode, h]

theorem fetchCode_run {c : Code} {s s1 : State} {i : Instr} (h : fetchCode c s = .run i s1) :
    decode s.env c = .ok i ∧ s1 = s := by
  cases hd : decode s.env c with
  | error e => simp [fetchCode, hd] at h
  | ok j =>
    simp only [fetchCode, hd, Fetched.run.injEq] at h
    exact ⟨by rw [h.1], h.2.symm⟩

/-- What the engine finds to do: nothing (waiting for a call, or holding), a byte to act on, the end of the flush, or a byte
to send. -/
theorem engineFetch_cases (s : State) :
    (s.phase = .idle ∧ engineFetch s = .silent s) ∨
    (Reading s.phase ∧ s.rxq = [] ∧ engineFetch s = .silent s) ∨
    (s.phase ≠ .idle ∧ s.phase ≠ .tx ∧ ∃ b r i, s.rxq = b :: r ∧ decode s.env (.byte s.phase b) = .ok i ∧
      engineFetch s = .run i { s with rxq := r }) ∨
    (s.phase = .flush ∧ s.rxq = [] ∧ engineFetch s = .run .flEmpty s) ∨
    (s.phase = .tx ∧ engineFetch s = .run .tx s) := by
  have key : ∀ p : Phase, p ≠ .idle → p ≠ .tx → ∀ b r, s.rxq = b :: r →
      ∃ i, decode s.env (.byte p b) = .ok i ∧ fetchByte p s = .run i { s with rxq := r } := by
    intro p h1 h2 b r hr
    obtain ⟨i, hi⟩ := decode_byte_isOk (e := s.env) (p := p) ⟨h1, h2⟩ b
    refine ⟨i, hi, ?_⟩
    simp only [fetchByte, rxRead_cons hr]
    exact fetchCode_ok hi
  have hold : ∀ p : Phase, s.rxq = [] → fetchByte p s = .silent s := by
    intro p hr
    simp [fetchByte, rxRead_nil hr]
  cases hp : s.phase with
  | idle => exact .inl ⟨rfl, by simp [engineFetch, hp]⟩
  | tx => exact .inr (.inr (.inr (.inr ⟨rfl, by simp only [engineFetch, hp]; rfl⟩)))
  | flush =>
    cases hr : s.rxq with
    | nil => exact .inr (.inr (.inr (.inl ⟨rfl, rfl, by simp only [engineFetch, hp, fetchFlush]; rw [if_pos (rxAvail_eq_zero.2 hr)]; rfl⟩)))
    | cons b r =>
      obtain ⟨i, h1, h2⟩ := key .flush (by simp) (by simp) b r hr
      refine .inr (.inr (.inl ⟨by simp, by simp, b, r, i, rfl, h1, ?_⟩))
      have : rxAvail s ≠ 0 := by simp [rxAvail, hr]
      simp [engineFetch, hp, fetchFlush, this, h2]
  | rdByte =>
    cases hr : s.rxq with
    | nil => exact .inr (.inl ⟨by simp [Reading], rfl, by simp [engineFetch, hp, hold _ hr]⟩)
    | cons b r =>
      obtain ⟨i, h1, h2⟩ := key .rdByte (by simp) (by simp) b r hr
      exact .inr (.inr (.inl ⟨by simp, by simp, b, r, i, rfl, h1, by simp [engineFetch, hp, h2]⟩))
  | rdAddr =>
    cases hr : s.rxq with
    | nil => exact .inr (.inl ⟨by simp [Reading], rfl, by simp [engineFetch, hp, hold _ hr]⟩)
    | cons b r =>
      obtain ⟨i, h1, h2⟩ := key .rdAddr (by simp) (by simp) b r hr
      exact .inr (.inr (.inl ⟨by simp, by simp, b, r, i, rfl, h1, by simp [engineFetch, hp, h2]⟩))
  | rdType =>
    cases hr : s.rxq with
    | nil => exact .inr (.inl ⟨by simp [Reading], rfl, by simp [engineFetch, hp, hold _ hr]⟩)
    | cons b r =>
      obtain ⟨i, h1, h2⟩ := key .rdType (by simp) (by simp) b r hr
      exact .inr (.inr (.inl ⟨by simp, by simp, b, r, i, rfl, h1, by simp [engineFetch, hp, h2]⟩))
  | rdEsc =>
    cases hr : s.rxq with
    | nil => exact .inr (.inl ⟨by simp [Reading], rfl, by simp [engineFetch, hp, hold _ hr]⟩)
    | cons b r =>
      obtain ⟨i, h1, h2⟩ := key .rdEsc (by simp) (by simp) b r hr
      exact .inr (.inr (.inl ⟨by simp, by simp, b, r, i, rfl, h1, by simp [engineFetch, hp, h2]⟩))

/-! ## A step -/

theorem step_of_run {s s1 : State} {i : Instr} (h : fetch s = .run i s1) : step s = exec i s1 := by simp [step, h]

theorem step_of_silent {s s1 : State} (h : fetch s = .silent s1) : step s = .next s1 := by simp [step, h]

/-- With nothing on the agenda the engine moves. -/
theorem fetch_engine {s : State} (hc : s.cfg.Admissible) (ha : s.agenda = []) : fetch s = engineFetch s := by
  unfold fetch
  rw [if_pos hc, ha]

/-- Otherwise the head of the agenda moves. -/
theorem fetch_move {s : State} {m : Move} {rest : List Move} (hc : s.cfg.Admissible) (ha : s.agenda = m :: rest) :
    fetch s = moveFetch m { s with agenda := rest } := by
  unfold fetch
  rw [if_pos hc, ha]

/-- The frame a frame-grain invocation runs, or the plain call. -/
theorem fetchFrame_cases (s : State) :
    (∃ i rest, decodeFrame s.env s.rxq = .ok (i, rest) ∧ fetchFrame s = .run i { s with rxq := rest }) ∨
    ((∃ x, decodeFrame s.env s.rxq = .error x) ∧ fetchFrame s = .run .invoke s) := by
  unfold fetchFrame
  split
  · exact .inl ⟨_, _, ‹_›, rfl⟩
  · exact .inr ⟨⟨_, ‹_›⟩, rfl⟩

/-- Everything a step can be: the parameters are admissible, and with `u` the state without the move taken, the engine
moves, a byte is delivered, a call is run, a frame is run, or the engine is reset. -/
theorem step_cases {s t : State} (h : step s = .next t) :
    s.cfg.Admissible ∧ ∃ u, (u = s ∧ s.agenda = [] ∨ ∃ m rest, s.agenda = m :: rest ∧ u = { s with agenda := rest }) ∧
    ((s.agenda = [] ∨ s.agenda.head? = some .engine) ∧ (engineFetch u = .silent t ∧ t = u ∨ ∃ i u1, engineFetch u = .run i u1 ∧ exec i u1 = .next t) ∨
     (∃ b, s.agenda.head? = some (.deliver b) ∧ t = deliver b u) ∨
     (∃ c, s.agenda.head? = some (.call c) ∧ exec (decodeCall c) u = .next t) ∨
     (s.agenda.head? = some .invokeFrame ∧ ∃ i u1, fetchFrame u = .run i u1 ∧ exec i u1 = .next t) ∨
     (s.agenda.head? = some .reset ∧ t = engineReset u)) := by
  have eng : ∀ u : State, (match engineFetch u with
      | .run i s1 => exec i s1 | .silent s1 => (.next s1 : Result) | .refuse r => .refused r) = .next t →
      (engineFetch u = .silent t ∧ t = u ∨ ∃ i u1, engineFetch u = .run i u1 ∧ exec i u1 = .next t) := by
    intro u hu
    rcases engineFetch_cases u with ⟨_, e⟩ | ⟨_, _, e⟩ | ⟨_, _, b, r, i, _, _, e⟩ | ⟨_, _, e⟩ | ⟨_, e⟩ <;> rw [e] at hu
    · have : u = t := by simpa using hu
      exact .inl ⟨by rw [e, this], this.symm⟩
    · have : u = t := by simpa using hu
      exact .inl ⟨by rw [e, this], this.symm⟩
    · exact .inr ⟨_, _, e, hu⟩
    · exact .inr ⟨_, _, e, hu⟩
    · exact .inr ⟨_, _, e, hu⟩
  unfold step at h
  by_cases hc : s.cfg.Admissible
  · refine ⟨hc, ?_⟩
    cases ha : s.agenda with
    | nil =>
      rw [fetch_engine hc ha] at h
      exact ⟨s, .inl ⟨rfl, rfl⟩, .inl ⟨.inl rfl, eng s h⟩⟩
    | cons m rest =>
      rw [fetch_move hc ha] at h
      refine ⟨{ s with agenda := rest }, .inr ⟨m, rest, rfl, rfl⟩, ?_⟩
      cases m with
      | engine => exact .inl ⟨.inr rfl, eng _ h⟩
      | deliver b => exact .inr (.inl ⟨b, rfl, by simpa [moveFetch] using h.symm⟩)
      | call c => exact .inr (.inr (.inl ⟨c, rfl, by simpa [moveFetch, fetchCode, decode] using h⟩))
      | invokeFrame =>
        refine .inr (.inr (.inr (.inl ⟨rfl, ?_⟩)))
        simp only [moveFetch] at h
        rcases fetchFrame_cases { s with agenda := rest } with ⟨i, r, _, e⟩ | ⟨_, e⟩ <;> rw [e] at h
        · exact ⟨_, _, e, h⟩
        · exact ⟨_, _, e, h⟩
      | reset => exact .inr (.inr (.inr (.inr ⟨rfl, by simpa [moveFetch] using h.symm⟩)))
  · simp [fetch, hc] at h

/-! ## Runs -/

@[simp] theorem steps_zero (s : State) : steps 0 s = .next s := rfl

/-- One step and then the rest. -/
theorem steps_succ_of_next {s t : State} (k : Nat) (h : step s = .next t) : steps (k + 1) s = steps k t := by
  simp [steps, h]

/-- A run of `k + 1` steps that answers next begins with a step that does. -/
theorem steps_succ_inv {s t : State} {k : Nat} (h : steps (k + 1) s = .next t) :
    ∃ u, step s = .next u ∧ steps k u = .next t := by
  rw [steps] at h
  split at h
  · exact ⟨_, ‹_›, h⟩
  · cases h
  · cases h

/-- A run of `m + n` steps is a run of `m` and then one of `n`. -/
theorem steps_add {s t : State} (m n : Nat) (h : steps m s = .next t) : steps (m + n) s = steps n t := by
  induction m generalizing s with
  | zero =>
    injection h with h
    subst h
    rw [Nat.zero_add]
  | succ m ih =>
    obtain ⟨u, h1, h2⟩ := steps_succ_inv h
    rw [show m + 1 + n = (m + n) + 1 by omega, steps_succ_of_next _ h1]
    exact ih h2

/-- What every step keeps, every run keeps. -/
theorem steps_keep {P : State → Prop} (hP : ∀ s t, P s → step s = .next t → P t) {s t : State} (k : Nat) (h0 : P s)
    (h : steps k s = .next t) : P t := by
  induction k generalizing s with
  | zero =>
    injection h with h
    exact h ▸ h0
  | succ k ih =>
    obtain ⟨u, h1, h2⟩ := steps_succ_inv h
    exact ih (hP _ _ h0 h1) h2

/-! ## The count of the last response (log 18) -/

/-- Sampling `n` inputs makes `n` the reported count. -/
@[simp] theorem reportedCount_afterSample (s : State) (n : Nat) : reportedCount (afterSample s n) = n := by
  simp [reportedCount, afterSample]

/-- With the invariant, R39 as written is its bound on `txLen`. -/
theorem rangesAsListed_iff {s : State} (h : StateOk s) : RangesAsListed s ↔ s.txLen ≤ 6 + 2 * s.inCount := by
  obtain ⟨⟨-, -, cap, -⟩, ⟨h1, h2, h3, h4, h5, -, -, h6, h7⟩, -⟩ := h
  exact ⟨fun l => l.2.2.2.2.2.1, fun l => ⟨h1, h2, h3, h4, h5, l, by omega, h6, h7⟩⟩

end Sys2Proof.Machine
end

