-- ==== Sys2Proof/Tests/Slice0.lean ====
section
/-! SUPPORT. Own tests: ill-formed terms, words of the encoding tables, one step of each instruction (expected results from the
examples of spec/ and spec/95_test_vectors.md, or by hand from the rule named), and a witness for every statement with hypotheses. -/

namespace Sys2Proof.Tests

open Sys2Proof.Machine

/-! ## Helpers -/

/-- Node 0 with the standard parameters. -/
def env0 : Env := ⟨Config.standard, 0⟩

/-- The least admissible capacities: one I/O byte, eight payload bytes. -/
def small : Config := { Config.standard with msgCap := 8, ioCap := 1 }

/-- The other admissible choices of R8. -/
def other : Config := { small with initDelayOffset := 0, clsInitial := .error, rxSeesOwnTx := true, syn := 0x16#8 }

/-- A configured, idle node 0 with `ic` inputs and `oc` outputs. -/
def ready (ic oc : Nat) : State :=
  { State.reset with addressWritten := true, inCount := ic, outCount := oc, countsWritten := true }

/-- The same inside an invocation, in phase `p`, with bytes waiting. -/
def inPhase (p : Phase) (bs : List Byte) : State := { ready 1 1 with phase := p, rxq := bs }

/-- A parse of class `c` whose payload is complete. -/
def parsed (c : Classification) (p : List Byte) (s : State) : State :=
  { s with phase := .rdByte, cls := c, inData := true, idx := p.length, msg := Memory.writeList none [] 0 p }

/-- One small node, idle, at the capacities of `small`. -/
def tight : State := { ready 1 1 with cfg := small }

/-- A parse of the small node that has appended all it may. -/
def full : State := parsed .transmit [1#8, 2#8, 3#8, 4#8, 5#8, 6#8, 7#8, 8#8] tight

/-- The small node with `Invoke` called next and bytes waiting. -/
def called (q : List Byte) : State := { tight with agenda := [.call .invoke], rxq := q }

/-- A response of two bytes, nothing sent yet. -/
def sending : State := { inPhase .tx [] with msg := [(0, 0xFF#8), (1, 0x03#8)], txLen := 2 }

/-- One input has been reported in a response of eight bytes, and `configure` is called next with `ic` inputs. -/
def reported (ic : Nat) : State :=
  { ready 1 1 with txLen := 8, txPos := 8, samplelog := [1], agenda := [.call (.configure ic 1 false false)] }

/-- What a result leaves in a field. -/
def left {α : Type} (r : Result) (f : State → α) : Option α :=
  match r with
  | .next t => some (f t)
  | .fault _ => none
  | .refused _ => none

/-- A refusal, if the result is one. -/
def why (r : Result) : Option Refusal :=
  match r with
  | .refused x => some x
  | .next _ => none
  | .fault _ => none

/-! ## Ill-formed terms are refused by each check -/

theorem test_wellFormed_data :
    wellFormed env0 (.data 0x55#8) = true ∧ wellFormed env0 (.data 0x02#8) = false ∧ wellFormed env0 (.data 0x03#8) = false ∧
    wellFormed env0 (.data 0x10#8) = false ∧ wellFormed env0 (.data 0xFF#8) = false := by decide

theorem test_wellFormed_address :
    wellFormed env0 (.addrMatch 0x42#8) = false ∧ wellFormed env0 (.addrForeign 0x41#8) = false ∧
    wellFormed env0 (.frameForeign 0x41#8) = false := by decide

theorem test_wellFormed_type :
    wellFormed env0 (.typeBad 0x49#8) = false ∧ wellFormed env0 (.typeBad 0x50#8) = false ∧
    wellFormed env0 (.typeBad 0x52#8) = false ∧ wellFormed env0 (.typeBad 0x54#8) = false := by decide

theorem test_wellFormed_flSkip : wellFormed env0 (.flSkip 0x03#8) = false := by decide

theorem test_wellFormed_configure :
    wellFormed env0 (.configure 22 22 true true) = true ∧ wellFormed env0 (.configure 23 0 false false) = false ∧
    wellFormed env0 (.configure 0 23 false false) = false := by decide

theorem test_wellFormed_frame_address :
    wellFormed env0 (.frameI 0x42#8 []) = false ∧ wellFormed env0 (.frameP 0x42#8 []) = false ∧
    wellFormed env0 (.frameR 0x42#8 []) = false ∧ wellFormed env0 (.frameT 0x42#8 []) = false ∧
    wellFormed env0 (.frameBadtype 0x42#8 0x58#8) = false ∧ wellFormed env0 (.frameBadtype 0x41#8 0x54#8) = false := by decide

theorem test_wellFormed_frame_length :
    wellFormed ⟨small, 0⟩ (.frameT 0x41#8 (List.replicate 8 0#8)) = true ∧
    wellFormed ⟨small, 0⟩ (.frameI 0x41#8 (List.replicate 9 0#8)) = false ∧
    wellFormed ⟨small, 0⟩ (.frameP 0x41#8 (List.replicate 9 0#8)) = false ∧
    wellFormed ⟨small, 0⟩ (.frameR 0x41#8 (List.replicate 9 0#8)) = false ∧
    wellFormed ⟨small, 0⟩ (.frameT 0x41#8 (List.replicate 9 0#8)) = false := by decide

/-! ## Words of the encoding tables (R72, R85, R92) -/

theorem test_decode_rdByte :
    decode env0 (.byte .rdByte 0x02#8) = .ok .stx ∧ decode env0 (.byte .rdByte 0x03#8) = .ok .etx ∧
    decode env0 (.byte .rdByte 0x10#8) = .ok .dle ∧ decode env0 (.byte .rdByte 0xFF#8) = .ok .syn ∧
    decode env0 (.byte .rdByte 0x55#8) = .ok (.data 0x55#8) := by decide

theorem test_decode_rdAddr :
    decode env0 (.byte .rdAddr 0x41#8) = .ok (.addrMatch 0x41#8) ∧
    decode ⟨Config.standard, 64⟩ (.byte .rdAddr 0x81#8) = .ok (.addrMatch 0x81#8) ∧
    decode env0 (.byte .rdAddr 0x42#8) = .ok (.addrForeign 0x42#8) ∧
    decode env0 (.byte .rdAddr 0x02#8) = .ok (.addrForeign 0x02#8) := by decide

theorem test_decode_rdType :
    decode env0 (.byte .rdType 0x49#8) = .ok .typeI ∧ decode env0 (.byte .rdType 0x50#8) = .ok .typeP ∧
    decode env0 (.byte .rdType 0x52#8) = .ok .typeR ∧ decode env0 (.byte .rdType 0x54#8) = .ok .typeT ∧
    decode env0 (.byte .rdType 0x58#8) = .ok (.typeBad 0x58#8) ∧
    decode env0 (.byte .rdType 0x03#8) = .ok (.typeBad 0x03#8) := by decide

theorem test_decode_rdEsc : decode env0 (.byte .rdEsc 0x03#8) = .ok (.escLit 0x03#8) := by decide

theorem test_decode_flush :
    decode env0 (.byte .flush 0x03#8) = .ok .flEnd ∧ decode env0 (.byte .flush 0x54#8) = .ok (.flSkip 0x54#8) ∧
    decode env0 (.noByte .flush) = .ok .flEmpty := by decide

theorem test_decode_tx : decode env0 (.noByte .tx) = .ok .tx ∧ decode env0 (.byte .tx 0x02#8) = .error .readsNoByte := by decide

theorem test_decode_calls :
    decode env0 (.call .invoke) = .ok .invoke ∧ decode env0 (.call (.setAddress 200#8)) = .ok (.setAddress 200#8) ∧
    decode env0 (.call (.configure 2 3 false true)) = .ok (.configure 2 3 false true) := by decide

/-- P1's two frames (node 1), and the frame of R135's example. -/
theorem test_decode_frames :
    decode ⟨Config.standard, 1⟩ (.frame [0xFF#8, 0xFF#8, 0x02#8, 0x42#8, 0x49#8, 0x43#8, 0x00#8, 0x01#8, 0x03#8]) =
      .ok (.frameI 0x42#8 [0x43#8, 0x00#8, 0x01#8]) ∧
    decode ⟨Config.standard, 1⟩ (.frame [0xFF#8, 0xFF#8, 0x02#8, 0x42#8, 0x50#8, 0x03#8]) = .ok (.frameP 0x42#8 []) ∧
    decode env0 (.frame [0xFF#8, 0xFF#8, 0x02#8, 0x41#8, 0x52#8, 0x10#8, 0x02#8, 0xFF#8, 0x03#8]) =
      .ok (.frameR 0x41#8 [0x02#8, 0xFF#8]) ∧
    decode env0 (.frame [0xFF#8, 0xFF#8, 0x02#8, 0x41#8, 0x54#8, 0xA5#8, 0x10#8, 0x02#8, 0x03#8]) =
      .ok (.frameT 0x41#8 [0xA5#8, 0x02#8]) := by decide

theorem test_decode_rejected_frames :
    decode env0 (.frame [0xFF#8, 0xFF#8, 0x02#8, 0x41#8, 0x58#8]) = .ok (.frameBadtype 0x41#8 0x58#8) ∧
    decode env0 (.frame [0xFF#8, 0xFF#8, 0x02#8, 0x42#8]) = .ok (.frameForeign 0x42#8) ∧
    decode env0 (.frame [0xFF#8, 0xFF#8, 0x02#8, 0x41#8, 0x54#8, 0xA5#8]) = .error .incompleteFrame ∧
    decode env0 (.frame [0xFF#8, 0xFF#8, 0x02#8, 0x41#8, 0x54#8, 0x02#8, 0x03#8]) = .error .restartInPayload := by decide

/-- R71, R75: the words of the table as the host numbers them. -/
theorem test_decodeTableWord :
    decodeTableWord 8 0x02 = some .stx ∧ decodeTableWord 8 0x03 = some .etx ∧ decodeTableWord 8 0x10 = some .dle ∧
    decodeTableWord 8 0xFF = some .syn ∧ decodeTableWord 8 0x00 = some (.data 0x00#8) ∧ decodeTableWord 8 0x49 = some .typeI ∧
    decodeTableWord 0 0 = none := by decide

/-- The step runs the table word that `withFetchWord` places. -/
theorem test_withFetchWord :
    left (step (State.reset.withFetchWord 8 0x02)) State.phase = some .rdAddr ∧
    left (step (State.reset.withFetchWord 8 0x50)) State.cls = some .poll := by decide

/-! ## One step of each instruction -/

/-- R104's example. -/
theorem test_stx : left (step (inPhase .rdByte [0x02#8, 0x41#8])) (fun t => (t.phase, t.inData, t.rxq)) =
    some (.rdAddr, true, [0x41#8]) := by decide

/-- R132's example: payload `43 01 00` gives 2560; vector V62: `FF FF` is not truncated. -/
theorem test_etx_initialization :
    left (exec .etx (parsed .init [0x43#8, 0x01#8, 0x00#8] (ready 0 0))) (fun t => (t.txDelay, t.phase)) = some (2560, .idle) ∧
    left (exec .etx (parsed .init [0x43#8, 0xFF#8, 0xFF#8] (ready 0 0))) State.txDelay = some 655350 := by decide

/-- R135's example, plain and inverted. -/
theorem test_etx_transmit :
    left (exec .etx (parsed .transmit [0xA5#8, 0x02#8] (ready 0 2))) State.applylog = some [[0xA5#8, 0x02#8]] ∧
    left (exec .etx (parsed .transmit [0xA5#8, 0x02#8] { ready 0 2 with invOut := true })) State.applylog =
      some [[0x5A#8, 0xFD#8]] := by decide

/-- R108's example. -/
theorem test_dle : left (step (inPhase .rdByte [0x10#8, 0x02#8])) (fun t => (t.phase, t.idx, t.rxq)) =
    some (.rdEsc, 0, [0x02#8]) := by decide

/-- R110's examples: dropped outside data mode, kept at index 3 in data mode. -/
theorem test_syn :
    left (step (inPhase .rdByte [0xFF#8, 0x02#8])) (fun t => (t.idx, t.rxq)) = some (0, [0x02#8]) ∧
    left (exec .syn (parsed .transmit [1#8, 4#8, 5#8] (ready 0 1))) (fun t => (t.idx, t.msg.find 3)) =
      some (4, some 0xFF#8) := by decide

/-- R111's example. -/
theorem test_data : left (step (inPhase .rdByte [0x55#8])) (fun t => (t.idx, t.msg, t.phase)) =
    some (1, [(0, 0x55#8)], .rdByte) := by decide

/-- Vector V65 at the small capacity: the byte past the limit is dropped and the sentinel stands at the limit. -/
theorem test_data_overrun : left (exec (.data 0x55#8) full) (fun t => (t.cls, t.phase, t.idx, t.msg.find 8)) =
    some (.error, .flush, 8, some 0#8) := by decide

/-- R105's examples. -/
theorem test_addrMatch : left (step (inPhase .rdAddr [0x41#8, 0x50#8])) State.phase = some .rdType := by decide

theorem test_addrForeign : left (step (inPhase .rdAddr [0x42#8, 0x54#8, 0xAA#8, 0x03#8])) (fun t => (t.cls, t.phase, t.rxq)) =
    some (.ignore, .flush, [0x54#8, 0xAA#8, 0x03#8]) := by decide

/-- R106, the four letters and its bad-type example. -/
theorem test_typeI : left (step (inPhase .rdType [0x49#8])) (fun t => (t.cls, t.phase)) = some (.init, .rdByte) := by decide

theorem test_typeP : left (step (inPhase .rdType [0x50#8])) (fun t => (t.cls, t.phase)) = some (.poll, .rdByte) := by decide

theorem test_typeR : left (step (inPhase .rdType [0x52#8])) (fun t => (t.cls, t.phase)) = some (.read, .rdByte) := by decide

theorem test_typeT : left (step (inPhase .rdType [0x54#8])) (fun t => (t.cls, t.phase)) = some (.transmit, .rdByte) := by decide

theorem test_typeBad : left (step (inPhase .rdType [0x58#8, 0x03#8])) (fun t => (t.cls, t.phase, t.rxq)) =
    some (.error, .flush, [0x03#8]) := by decide

/-- R109's example. -/
theorem test_escLit : left (step (inPhase .rdEsc [0x02#8, 0x10#8])) (fun t => (t.idx, t.msg, t.phase, t.rxq)) =
    some (1, [(0, 0x02#8)], .rdByte, [0x10#8]) := by decide

/-- R139's example, step by step. -/
theorem test_flEnd : left (step (inPhase .flush [0x03#8, 0xFF#8])) (fun t => (t.phase, t.rxq)) = some (.idle, [0xFF#8]) := by decide

theorem test_flSkip : left (step (inPhase .flush [0x54#8, 0x03#8])) (fun t => (t.phase, t.rxq)) = some (.flush, [0x03#8]) := by decide

theorem test_flEmpty : left (step (inPhase .flush [])) State.phase = some .idle := by decide

/-- R156's example: the third of six bytes, then the last one; vector V47's pacing after the last byte. -/
theorem test_tx :
    left (step { inPhase .tx [] with msg := Memory.writeList none [] 0 [0xFF#8, 0xFF#8, 0x02#8], txPos := 2, txLen := 6 })
      (fun t => (t.txlog, t.txPos, t.phase)) = some ([.tx 0x02#8], 3, .tx) := by decide

theorem test_tx_last_paced :
    left (step { inPhase .tx [] with msg := [(5, 0x03#8)], txPos := 5, txLen := 6, txDelay := 2560 })
      (fun t => (t.txlog, t.txPos, t.phase)) = some ([.tx 0x03#8, .pace 2560], 6, .idle) := by decide

/-- R101's and R102's examples. -/
theorem test_invoke :
    left (exec .invoke { ready 0 0 with cls := .poll }) (fun t => (t.cls, t.phase)) = some (.none, .idle) ∧
    left (exec .invoke { ready 0 0 with rxq := [0xFF#8], idx := 7, inData := true }) (fun t => (t.phase, t.idx, t.inData, t.rxq)) =
      some (.rdByte, 0, false, [0xFF#8]) := by decide

/-- Vector V53. -/
theorem test_invoke_unconfigured : why (exec .invoke State.reset) = some .notConfigured := by decide

/-- R170's examples. -/
theorem test_setAddress :
    left (exec (.setAddress 64#8) State.reset) State.returned = some (some 64) ∧
    left (exec (.setAddress 200#8) State.reset) State.address = some 64 := by decide

/-- Vector V54. -/
theorem test_setAddress_busy : why (exec (.setAddress 3#8) (inPhase .rdByte [])) = some .callDuringInvocation := by decide

/-- Vector V50. -/
theorem test_configure : left (exec (.configure 2 3 false true) State.reset) (fun t => (t.inCount, t.outCount, t.invIn, t.invOut)) =
    some (2, 3, false, true) := by decide

/-- Vector V52. -/
theorem test_configure_too_large : why (exec (.configure 23 0 false false) State.reset) = some .countTooLarge := by decide

/-- Program P1, frame 1; and the other delay position of R8 with a payload of two bytes. -/
theorem test_frameI :
    left (exec (.frameI 0x42#8 [0x43#8, 0x00#8, 0x01#8]) (ready 2 0)) (fun t => (t.cls, t.idx, t.txDelay)) = some (.init, 3, 10) ∧
    left (exec (.frameI 0x41#8 [0x01#8, 0x00#8]) { ready 1 1 with cfg := other }) State.txDelay = some 2560 := by decide

/-- R160: the response to a poll with inputs `02 10`, and the inputs cleared. -/
theorem test_frameP :
    left (exec (.frameP 0x41#8 []) { ready 2 0 with sampleq := [0x02#8, 0x10#8] })
      (fun t => (t.phase, t.txLen, (List.range 10).map t.msg.find, t.inputBits)) =
      some (.tx, 10, [0xFF#8, 0xFF#8, 0x02#8, 0x41#8, 0x52#8, 0x10#8, 0x02#8, 0x10#8, 0x10#8, 0x03#8].map some, []) := by decide

/-- Vector V42: inversion comes before escaping. -/
theorem test_frameP_inverted :
    left (exec (.frameP 0x41#8 []) { ready 1 0 with sampleq := [0xFD#8], invIn := true })
      (fun t => (t.txLen, (List.range 8).map t.msg.find)) =
      some (8, [0xFF#8, 0xFF#8, 0x02#8, 0x41#8, 0x52#8, 0x10#8, 0x02#8, 0x03#8].map some) := by decide

/-- R136's example: flushed, nothing applied. -/
theorem test_frameR : left (exec (.frameR 0x41#8 [0x00#8]) (ready 1 1)) (fun t => (t.cls, t.phase, t.applylog)) =
    some (.read, .flush, []) := by decide

/-- Program P2, frame 1; then a payload shorter than the count: the sentinel, inverted (R135 corner case a). -/
theorem test_frameT :
    left (exec (.frameT 0x46#8 [0x0F#8, 0x10#8]) { ready 1 2 with invOut := true }) (fun t => (t.applylog, t.outputBits)) =
      some ([[0xF0#8, 0xEF#8]], [(0, 0xF0#8), (1, 0xEF#8)]) ∧
    left (exec (.frameT 0x46#8 []) { ready 1 1 with invOut := true }) State.applylog = some [[0xFF#8]] := by decide

theorem test_frameBadtype : left (exec (.frameBadtype 0x41#8 0x58#8) (ready 1 1)) (fun t => (t.cls, t.phase)) =
    some (.error, .flush) := by decide

theorem test_frameForeign : left (exec (.frameForeign 0x42#8) (ready 1 1)) (fun t => (t.cls, t.phase)) =
    some (.ignore, .flush) := by decide

/-- A delivery lifts a hold (program P4). -/
theorem test_deliver : left (step { inPhase .rdByte [] with agenda := [.deliver 0x03#8] }) (fun t => (t.phase, t.rxq)) =
    some (.rdByte, [0x03#8]) := by decide

/-- With an echo the byte sent arrives in `rxq` (R64). -/
theorem test_tx_echo : left (exec .tx { ready 0 0 with cfg := other, phase := .tx, msg := [(0, 0x16#8)], txLen := 6 }) State.rxq =
    some [0x16#8] := by decide

theorem test_reset_memory :
    Memory.wf 261 none State.reset.msg = true ∧ Memory.wf 22 (some 0#8) State.reset.inputBits = true ∧
    Memory.wf 22 (some 0#8) State.reset.outputBits = true := by decide

/-! ## Witnesses: concrete states and operands that meet the hypotheses of the statements together -/

theorem witness_admissible : Config.standard.Admissible ∧ small.Admissible ∧ other.Admissible := by decide

theorem witness_DecodingAnEncodedInstructionGivesItBack :
    env0.cfg.Admissible ∧ wellFormed env0 (.frameT 0x41#8 [0x02#8, 0x03#8, 0x10#8, 0xFF#8]) = true := by decide

theorem witness_DecodedBytesEncodeBack : decode env0 (.byte .flush 0x54#8) = .ok (.flSkip 0x54#8) := by decide

theorem witness_FrameDecodingNeverLooksBehindTheFrame :
    decodeFrame env0 [0xFF#8, 0xFF#8, 0x02#8, 0x41#8, 0x54#8, 0xA5#8, 0x03#8, 0xFF#8] = .ok (.frameT 0x41#8 [0xA5#8], [0xFF#8]) := by
  decide

theorem witness_ExactlyTheOffsetAddressMatches :
    (0 : Nat) ≤ 64 ∧ (0x41#8 : Byte).toNat = 0 + 65 ∧ (64 : Nat) ≤ 64 ∧ (0x81#8 : Byte).toNat = 64 + 65 ∧
    (0x82#8 : Byte).toNat ≠ 64 + 65 ∧ State.reset.phase = .idle := by decide

theorem witness_StepRunsTheDecodedInstruction_byte :
    (inPhase .rdByte [0x02#8, 0x41#8]).cfg.Admissible ∧ EngineTurn (inPhase .rdByte [0x02#8, 0x41#8]) (inPhase .rdByte [0x02#8, 0x41#8]) ∧
    (inPhase .rdByte [0x02#8, 0x41#8]).rxq = 0x02#8 :: [0x41#8] ∧
    decode (inPhase .rdByte [0x02#8, 0x41#8]).env (.byte .rdByte 0x02#8) = .ok .stx :=
  ⟨by decide, .inl ⟨rfl, rfl⟩, rfl, by decide⟩

theorem witness_StepRunsTheDecodedInstruction_engine_move :
    { inPhase .flush [] with agenda := [.engine] }.cfg.Admissible ∧
    EngineTurn { inPhase .flush [] with agenda := [.engine] } (inPhase .flush []) ∧ (inPhase .flush []).phase = .flush ∧
    (inPhase .flush []).rxq = [] :=
  ⟨by decide, .inr ⟨[], rfl, rfl⟩, rfl, rfl⟩

theorem witness_StepRunsTheDecodedInstruction_other_phases :
    (inPhase .tx []).phase = .tx ∧ (ready 1 1).phase = .idle ∧ Reading (inPhase .rdType []).phase ∧ (inPhase .rdType []).rxq = [] ∧
    EngineTurn (inPhase .tx []) (inPhase .tx []) ∧ EngineTurn (ready 1 1) (ready 1 1) ∧
    EngineTurn (inPhase .rdType []) (inPhase .rdType []) :=
  ⟨rfl, rfl, by decide, rfl, .inl ⟨rfl, rfl⟩, .inl ⟨rfl, rfl⟩, .inl ⟨rfl, rfl⟩⟩

theorem witness_StepRunsCallsFramesAndDeliveries :
    { ready 1 1 with agenda := [.deliver 0x02#8, .call .invoke, .call (.setAddress 9#8), .call (.configure 1 1 true true)] }.agenda =
      .deliver 0x02#8 :: [.call .invoke, .call (.setAddress 9#8), .call (.configure 1 1 true true)] ∧
    decodeFrame (ready 1 1).env [0xFF#8, 0xFF#8, 0x02#8, 0x41#8, 0x50#8, 0x03#8] = .ok (.frameP 0x41#8 [], []) ∧
    decodeFrame (ready 1 1).env [0xFF#8, 0xFF#8] = .error .incompleteFrame := by decide

theorem witness_ResetAtAnyMomentKeepsTheStreams :
    { inPhase .tx [0x02#8] with agenda := [.reset] }.cfg.Admissible ∧ { inPhase .tx [0x02#8] with agenda := [.reset] }.agenda = .reset :: [] := by
  decide

theorem witness_InadmissibleParametersAreRefused :
    ¬ { State.reset with cfg := { Config.standard with etx := 0xFF#8 } }.cfg.Admissible ∧
    ¬ { State.reset with cfg := { Config.standard with msgCap := 49 } }.cfg.Admissible := by decide

theorem witness_SynIsDataOnlyInDataMode :
    (inPhase .rdByte []).phase = .rdByte ∧ (inPhase .rdByte []).inData = false ∧
    (parsed .transmit [1#8] tight).inData = true ∧ (parsed .transmit [1#8] tight).idx < (parsed .transmit [1#8] tight).cfg.msgCap ∧
    (parsed .transmit [1#8] tight).phase = .rdByte ∧ full.phase = .rdByte ∧ full.inData = true ∧ full.idx = full.cfg.msgCap := by decide

theorem witness_OtherBytesAreAppendedInEitherMode :
    (0x04#8 : Byte) ≠ 0x02#8 ∧ (0x04#8 : Byte) ≠ env0.cfg.etx ∧ (0x04#8 : Byte) ≠ 0x10#8 ∧ (0x04#8 : Byte) ≠ env0.cfg.syn ∧
    (inPhase .rdByte []).inData = false ∧ (inPhase .rdByte []).idx < (inPhase .rdByte []).cfg.msgCap := by decide

theorem witness_EscapedBytesAreAppendedVerbatim :
    (inPhase .rdEsc []).phase = .rdEsc ∧ (inPhase .rdEsc []).idx < (inPhase .rdEsc []).cfg.msgCap ∧
    { full with phase := .rdEsc }.phase = .rdEsc ∧ { full with phase := .rdEsc }.idx = { full with phase := .rdEsc }.cfg.msgCap := by decide

theorem witness_AddressByteIsTakenByPosition : env0.address ≤ 64 ∧ (⟨small, 64⟩ : Env).address ≤ 64 ∧ full.idx ≤ full.cfg.msgCap := by
  decide

theorem witness_EndMarkerEndsAParseOnlyInTheReadLoop :
    env0.cfg.Admissible ∧ env0.address ≤ 64 ∧ env0.cfg.etx.toNat ≠ env0.address + 65 ∧ env0.cfg.etx ≠ 0x49#8 ∧ env0.cfg.etx ≠ 0x50#8 ∧
    env0.cfg.etx ≠ 0x52#8 ∧ env0.cfg.etx ≠ 0x54#8 := by decide

theorem witness_EndMarkerWithNothingPendingReturns :
    (parsed .none [0x55#8] tight).cls = .none ∧ (parsed .none [0x55#8] tight).idx ≤ (parsed .none [0x55#8] tight).cfg.msgCap := by decide

/-- Both delay bytes inside the payload; the low one at the sentinel; the high one at the sentinel. -/
theorem witness_InitializationSetsTheDelay :
    (parsed .init [1#8, 2#8, 4#8] tight).cfg.Admissible ∧ (parsed .init [1#8, 2#8, 4#8] tight).cls = .init ∧
    (parsed .init [1#8, 2#8, 4#8] tight).idx = 3 ∧ (parsed .init [1#8, 2#8, 4#8] tight).msg.find 2 = some 4#8 ∧
    (parsed .init [1#8, 2#8] tight).idx = small.initDelayOffset + 1 ∧ (parsed .init [1#8] tight).idx = small.initDelayOffset := by decide

theorem witness_PollBuildsTheEscapedResponse :
    (parsed .poll [] tight).cfg.Admissible ∧ (parsed .poll [] tight).cls = .poll ∧ (parsed .poll [] tight).idx ≤ small.msgCap ∧
    (parsed .poll [] tight).inCount = small.ioCap := by decide

theorem witness_TransmitCopiesAndAppliesTheOutputs :
    (parsed .transmit [0xA5#8] (ready 0 22)).cfg.Admissible ∧ (parsed .transmit [0xA5#8] (ready 0 22)).cls = .transmit ∧
    (parsed .transmit [0xA5#8] (ready 0 22)).idx < (parsed .transmit [0xA5#8] (ready 0 22)).outCount ∧
    (parsed .transmit [0xA5#8] (ready 0 22)).outCount = Config.standard.ioCap ∧
    (parsed .transmit [0xA5#8] (ready 0 22)).msg.find 0 = some 0xA5#8 := by decide

theorem witness_RejectedParsesEnterTheFlush :
    (parsed .read [] tight).cls = .read ∧ { full with cls := .error }.cls = .error ∧ full.idx ≤ full.cfg.msgCap := by decide

theorem witness_FlushStoresNothing : (inPhase .flush []).phase = .flush := by decide

theorem witness_FlushDiscardsThroughTheNextEndMarker :
    (inPhase .flush [0x54#8, 0x10#8, 0x03#8, 0xFF#8]).cfg.Admissible ∧ (inPhase .flush [0x54#8, 0x10#8, 0x03#8, 0xFF#8]).agenda = [] ∧
    (inPhase .flush [0x54#8, 0x10#8, 0x03#8, 0xFF#8]).rxq = [0x54#8, 0x10#8] ++ Config.standard.etx :: [0xFF#8] ∧
    Config.standard.etx ∉ [0x54#8, 0x10#8] := by decide

theorem witness_FlushWithoutAnEndMarkerEmptiesTheQueue :
    (inPhase .flush [0x54#8]).cfg.Admissible ∧ (inPhase .flush [0x54#8]).agenda = [] ∧ Config.standard.etx ∉ (inPhase .flush [0x54#8]).rxq := by
  decide

theorem witness_BuildAssemblesAndClears :
    { tight with inputBits := [(0, 0x10#8)] }.cfg.Admissible ∧ { tight with inputBits := [(0, 0x10#8)] }.inCount ≤ small.ioCap := by decide

theorem witness_SendStepWritesAndPacesOneByte :
    { inPhase .tx [] with msg := [(5, 0x03#8)], txPos := 5, txLen := 6 }.txPos ≤ Config.standard.msgCap ∧
    { inPhase .tx [] with msg := [(5, 0x03#8)], txPos := 5, txLen := 6 }.msg.find 5 = some 0x03#8 := by decide

theorem witness_ResponseIsSentInBufferOrder :
    sending.cfg.Admissible ∧ sending.agenda = [] ∧ sending.phase = .tx ∧ sending.txPos = 0 ∧
    sending.txLen = ([0xFF#8, 0x03#8] : List Byte).length ∧ ([0xFF#8, 0x03#8] : List Byte).length ≤ sending.cfg.msgCap + 1 ∧
    (∀ i < ([0xFF#8, 0x03#8] : List Byte).length, sending.msg.find i = [0xFF#8, 0x03#8][i]?) := by decide

theorem witness_InvokeReturnsAtOnceOrStartsAParse :
    (ready 1 1).phase = .idle ∧ (ready 1 1).addressWritten = true ∧ (ready 1 1).countsWritten = true ∧ (ready 1 1).rxq = [] ∧
    { ready 1 1 with rxq := [0x03#8] }.rxq ≠ [] := by decide

theorem witness_SetAddressStoresAndReturnsTheClampedValue :
    State.reset.phase = .idle ∧ (64#8 : Byte).toNat ≤ 64 ∧ 64 < (65#8 : Byte).toNat := by decide

theorem witness_ConfigureStoresTheCountsAndFlags :
    State.reset.phase = .idle ∧ 22 ≤ State.reset.cfg.ioCap ∧ 0 ≤ State.reset.cfg.ioCap ∧ State.reset.cfg.ioCap < 23 := by decide

theorem witness_CallsAreRefusedExactlyWhereTheSpecSaysSo :
    (inPhase .flush []).phase ≠ .idle ∧ State.reset.addressWritten = false ∧ { ready 1 1 with countsWritten := false }.phase = .idle ∧
    { ready 1 1 with countsWritten := false }.countsWritten = false ∧ State.reset.phase = .idle ∧ State.reset.cfg.ioCap < 23 ∧
    why (exec .invoke State.reset) = some .notConfigured ∧ callAllowed (ready 1 1) .invoke = true ∧
    callAllowed State.reset (.setAddress 200#8) = true ∧ callAllowed State.reset (.configure 22 0 false false) = true := by decide

/-- The frame statements: an idle, configured node, payloads of length 0 and of exactly `MSG_CAP`, counts at `IO_CAP`. -/
theorem witness_frames :
    tight.cfg.Admissible ∧ tight.phase = .idle ∧ tight.addressWritten = true ∧ tight.countsWritten = true ∧
    ([] : List Byte).length ≤ tight.cfg.msgCap ∧ (List.replicate 8 (0x55#8 : Byte)).length ≤ tight.cfg.msgCap ∧
    tight.inCount ≤ tight.cfg.ioCap ∧ tight.outCount ≤ tight.cfg.ioCap ∧
    ([0x43#8, 0x01#8, 0x00#8] ++ [0#8] : List Byte)[tight.cfg.initDelayOffset]? = some 0x01#8 ∧
    ([0x43#8] ++ [0#8] : List Byte)[tight.cfg.initDelayOffset]? = some 0#8 := by decide

theorem witness_OverlongFramesAreErrors :
    tight.phase = .idle ∧ tight.addressWritten = true ∧ tight.countsWritten = true ∧
    tight.cfg.msgCap < (List.replicate 9 (0x55#8 : Byte)).length := by decide

/-- One byte too many, an escaped one, and a tail behind it. -/
theorem witness_OverlongFramesAreErrors_byte_by_byte :
    (called (wireFrame small 0 0x54#8 (List.replicate 8 0x55#8 ++ [0x03#8, 0x02#8]) ++ [0xFF#8])).cfg.Admissible ∧
    (called (wireFrame small 0 0x54#8 (List.replicate 8 0x55#8 ++ [0x03#8, 0x02#8]) ++ [0xFF#8])).agenda = [.call .invoke] ∧
    (called []).phase = .idle ∧ (called []).addressWritten = true ∧ (called []).countsWritten = true ∧
    (called []).cfg.msgCap < (List.replicate 8 0x55#8 ++ [0x03#8, 0x02#8] : List Byte).length ∧
    (called (wireFrame small 0 0x54#8 (List.replicate 8 0x55#8 ++ [0x03#8, 0x02#8]) ++ [0xFF#8])).rxq =
      wireFrame (called []).cfg (called []).address 0x54#8 (List.replicate 8 0x55#8 ++ [0x03#8, 0x02#8]) ++ [0xFF#8] := by decide

theorem witness_FrameGrainAgreesWithByteGrain :
    (called []).cfg.Admissible ∧ (called []).agenda = [.call .invoke] ∧ (called []).phase = .idle ∧ (called []).addressWritten = true ∧ (called []).countsWritten = true ∧
    wellFormed (called []).env (.frameT 0x41#8 [0x02#8]) = true ∧
    encode (called []).cfg (.frameT 0x41#8 [0x02#8]) = .frame [0xFF#8, 0xFF#8, 0x02#8, 0x41#8, 0x54#8, 0x10#8, 0x02#8, 0x03#8] ∧
    (called [0xFF#8, 0xFF#8, 0x02#8, 0x41#8, 0x54#8, 0x10#8, 0x02#8, 0x03#8, 0xFF#8]).rxq = [0xFF#8, 0xFF#8, 0x02#8, 0x41#8, 0x54#8, 0x10#8, 0x02#8, 0x03#8] ++ [0xFF#8] := by decide

theorem witness_ResponseParsesBackToTheInputs :
    (called (wireFrame small 0 0x52#8 [0x02#8] ++ [0x41#8])).cfg.Admissible ∧
    (called (wireFrame small 0 0x52#8 [0x02#8] ++ [0x41#8])).agenda = [.call .invoke] ∧
    (called []).phase = .idle ∧ (called []).addressWritten = true ∧ (called []).countsWritten = true ∧
    ([0x02#8] : List Byte).length = (called []).cfg.ioCap ∧
    (called (wireFrame small 0 0x52#8 [0x02#8] ++ [0x41#8])).rxq =
      wireFrame (called []).cfg (called []).address 0x52#8 [0x02#8] ++ [0x41#8] := by decide

theorem witness_PollCycleReportsTheSampledInputs :
    (called (wireFrame small 0 0x50#8 [] ++ [0xFF#8])).cfg.Admissible ∧ (called []).cfg.rxSeesOwnTx = false ∧
    (called (wireFrame small 0 0x50#8 [] ++ [0xFF#8])).agenda = [.call .invoke] ∧ (called []).phase = .idle ∧
    (called []).addressWritten = true ∧ (called []).countsWritten = true ∧ (called []).inCount = (called []).cfg.ioCap ∧
    (called (wireFrame small 0 0x50#8 [] ++ [0xFF#8])).rxq = wireFrame (called []).cfg (called []).address 0x50#8 [] ++ [0xFF#8] ∧
    wireFrame small 0 0x50#8 [] = [0xFF#8, 0xFF#8, 0x02#8, 0x41#8, 0x50#8, 0x03#8] := by decide

/-- R138's example. -/
theorem witness_ForeignFrameIsDiscardedUnseen :
    (called [0xFF#8, 0xFF#8, 0x02#8, 0x42#8, 0x54#8, 0xAA#8, 0x03#8]).cfg.Admissible ∧
    (called [0xFF#8, 0xFF#8, 0x02#8, 0x42#8, 0x54#8, 0xAA#8, 0x03#8]).agenda = [.call .invoke] ∧ (called []).phase = .idle ∧
    (called []).addressWritten = true ∧ (called []).countsWritten = true ∧ (called []).address ≤ 64 ∧
    (0x42#8 : Byte).toNat ≠ (called []).address + 65 ∧ (called []).cfg.etx ∉ [0x54#8, 0xAA#8] ∧
    (called [0xFF#8, 0xFF#8, 0x02#8, 0x42#8, 0x54#8, 0xAA#8, 0x03#8]).rxq =
      [(called []).cfg.syn, (called []).cfg.syn, 0x02#8, 0x42#8] ++ [0x54#8, 0xAA#8] ++ (called []).cfg.etx :: [] := by decide

theorem witness_AHoldLastsUntilAByteArrives :
    (inPhase .rdAddr []).cfg.Admissible ∧ (inPhase .rdAddr []).agenda = [] ∧ Holding (inPhase .rdAddr []) := by decide

theorem witness_AtRestInvokeChangesNothing :
    (called []).cfg.Admissible ∧ AtRest (called []) ∧ (called []).addressWritten = true ∧ (called []).countsWritten = true ∧
    (called []).agenda = .call .invoke :: [] := by decide

/-- States with the invariant in a reading phase and in TX, and a step from each. -/
theorem witness_EveryStepKeepsTheInvariant :
    StateOk { full with rxq := [0x03#8] } ∧ left (step { full with rxq := [0x03#8] }) State.phase = some .idle ∧
    StateOk sending ∧
    left (step sending) State.txPos = some 1 :=
  ⟨by decide, by decide, by decide, by decide⟩

/-- R39 as written, in TX; in IDLE after a response of one input, where lowering the count breaks it and keeping it does not. -/
theorem witness_OnlyALoweredCountBreaksTheListedRanges :
    StateOk sending ∧ sending.phase = .tx ∧ RangesAsListed sending ∧
    StateOk (reported 0) ∧ RangesAsListed (reported 0) ∧ left (step (reported 0)) (fun t => (t.inCount, t.txLen)) = some (0, 8) ∧
    StateOk (reported 1) ∧ RangesAsListed (reported 1) ∧ left (step (reported 1)) (fun t => (t.inCount, t.txLen)) = some (1, 8) :=
  ⟨by decide, by decide, by decide, by decide, by decide, by decide, by decide, by decide, by decide⟩

/-- Moves that are allowed and moves that are not, from states with the invariant. -/
theorem witness_OnlyRefusedCallsStopTheMachine :
    StateOk { tight with agenda := [.call .invoke] } ∧ nextMoveAllowed { tight with agenda := [.call .invoke] } = true ∧
    StateOk { State.reset with agenda := [.invokeFrame] } ∧ nextMoveAllowed { State.reset with agenda := [.invokeFrame] } = false :=
  ⟨by decide, by decide, by decide, by decide⟩

/-- Steps the whole-machine statements speak of: a byte read, a byte sent without an echo, a delivery. -/
theorem witness_steps_that_answer_next :
    left (step (inPhase .rdByte [0x02#8])) State.rxq = some [] ∧ (inPhase .rdByte [0x02#8]).phase ≠ .tx ∧
    (inPhase .rdByte [0x02#8]).cfg.rxSeesOwnTx = false ∧ (inPhase .rdByte [0x02#8]).agenda.head? ≠ some .invokeFrame ∧
    (inPhase .rdByte [0x02#8]).agenda.head? = none ∧
    left (step { inPhase .tx [0x02#8] with msg := [(0, 0xFF#8)], txLen := 2 }) State.rxq = some [0x02#8] ∧
    left (steps 2 (inPhase .rdByte [0x02#8, 0x41#8])) State.phase = some .rdType :=
  ⟨by decide, by decide, by decide, by decide, by decide, by decide, by decide⟩

end Sys2Proof.Tests
end

section
/-! The wire encoding (spec/30_encoding.md R74, R76): the escape codec byte by byte, the address byte as a number, and the two
obligations about them. -/

namespace Sys2Proof

open Sys2Proof.Machine

/-! ## The escape codec, byte by byte (R76) -/

theorem needsEscape_iff (c : Config) (v : Byte) : needsEscape c v = true ↔ v = Config.stx ∨ v = c.etx ∨ v = Config.dle := by
  simp [needsEscape, or_assoc]

/-- `SYN` is no marker the sender escapes, because the four markers are pairwise distinct (R8, R78). -/
theorem needsEscape_syn {c : Config} (hc : c.Admissible) : needsEscape c c.syn = false := by
  obtain ⟨⟨-, -, etx_ne_syn, syn_ne_stx, syn_ne_dle⟩, -⟩ := hc
  simp [needsEscape, syn_ne_stx, syn_ne_dle, etx_ne_syn.symm]

@[simp] theorem escape_nil (c : Config) : escape c [] = [] := rfl

theorem escape_cons_of_needsEscape {c : Config} {v : Byte} (h : needsEscape c v = true) (r : List Byte) :
    escape c (v :: r) = Config.dle :: v :: escape c r := by
  rw [escape, if_pos h]

theorem escape_cons_of_plain {c : Config} {v : Byte} (h : needsEscape c v = false) (r : List Byte) :
    escape c (v :: r) = v :: escape c r := by
  rw [escape, if_neg (by simp [h])]

/-- The escaped payload is the concatenation of the codes of its bytes. -/
theorem escape_eq_flatMap (c : Config) (p : List Byte) :
    escape c p = p.flatMap fun v => if v = Config.stx ∨ v = c.etx ∨ v = Config.dle then [Config.dle, v] else [v] := by
  induction p with
  | nil => rfl
  | cons v r ih =>
    rw [List.flatMap_cons, ← ih]
    by_cases hv : needsEscape c v = true
    · rw [escape_cons_of_needsEscape hv, if_pos ((needsEscape_iff c v).1 hv)]
      rfl
    · rw [escape_cons_of_plain (Bool.eq_false_iff.2 hv), if_neg (mt (needsEscape_iff c v).2 hv)]
      rfl

/-- Settles O6: the recursion of `escape` is a concatenation over the bytes, and `SYN` is none of the three markers. -/
theorem escapingPutsDleBeforeTheThreeMarkers : Obligations.EscapingPutsDleBeforeTheThreeMarkers := by
  intro c a t p hc
  have filler_unescaped : escape c [c.syn] = [c.syn] := by
    rw [escape_cons_of_plain (needsEscape_syn hc), escape_nil]
  exact ⟨escape_eq_flatMap c p, filler_unescaped, rfl⟩

/-! ## The address byte (R74) -/

/-- An admissible address plus 65 is below 256, so the eight bits hold the sum. -/
theorem addrByte_toNat {n : Nat} (hn : n ≤ 64) : (addrByte n).toNat = n + 65 := by
  have fits : n + 65 < 2 ^ 8 := by omega
  rw [addrByte, BitVec.toNat_ofNat, Nat.mod_eq_of_lt fits]

theorem eq_addrByte_iff {n : Nat} (hn : n ≤ 64) (b : Byte) : b = addrByte n ↔ b.toNat = n + 65 := by
  rw [← BitVec.toNat_inj, addrByte_toNat hn]

theorem decode_rdAddr_of_eq {e : Env} {b : Byte} (h : b = addrByte e.address) :
    decode e (.byte .rdAddr b) = .ok (.addrMatch b) := by
  simp [decode, decodeByte, decodeRdAddr, h]

theorem decode_rdAddr_of_ne {e : Env} {b : Byte} (h : b ≠ addrByte e.address) :
    decode e (.byte .rdAddr b) = .ok (.addrForeign b) := by
  simp [decode, decodeByte, decodeRdAddr, h]

theorem clampAddress_eq_min (a : Byte) : clampAddress a = min a.toNat 64 := by
  simp only [clampAddress, Config.addrMax]
  split <;> omega

theorem exec_setAddress_of_idle {s : State} (a : Byte) (h : s.phase = .idle) :
    exec (.setAddress a) s =
      .next { s with address := clampAddress a, addressWritten := true, returned := some (clampAddress a) } := by
  rw [show exec (.setAddress a) s = execSetAddress a s from rfl, execSetAddress, if_pos h]

/-- Settles O7: comparing with the address byte is comparing numbers with `address + 65`, and the clamp is a minimum. -/
theorem exactlyTheOffsetAddressMatches : Obligations.ExactlyTheOffsetAddressMatches := by
  refine ⟨fun c n b hn => ⟨addrByte_toNat hn, ?matching, ?foreign⟩, fun s a hs => ?clamp⟩
  case matching => exact fun hb => decode_rdAddr_of_eq ((eq_addrByte_iff hn b).2 hb)
  case foreign => exact fun hb => decode_rdAddr_of_ne (mt (eq_addrByte_iff hn b).1 hb)
  case clamp => exact ⟨_, exec_setAddress_of_idle a hs, clampAddress_eq_min a⟩

end Sys2Proof
end

section
/-! The Frame Parser's read loop (spec/40_frame_parser.md R108): the escape marker as a byte, its meaning as a state change. -/

namespace Sys2Proof

open Sys2Proof.Machine

/-- The end marker is tested before the escape marker, so an admissible `ETX` must differ from `DLE` (R8, R85). -/
theorem decodeRdByte_dle {c : Config} (etx_ne_dle : c.etx ≠ Config.dle) : decodeRdByte c Config.dle = .dle := by
  have dle_ne_stx : Config.dle ≠ Config.stx := by decide
  rw [decodeRdByte, if_neg dle_ne_stx, if_neg etx_ne_dle.symm, if_pos rfl]

theorem decode_rdByte (e : Env) (b : Byte) : decode e (.byte .rdByte b) = .ok (decodeRdByte e.cfg b) := rfl

/-- No field but the phase is written, and no field (the data mode among them) is read. -/
theorem exec_dle (s : State) : exec .dle s = .next { s with phase := .rdEsc } := rfl

/-- Settles O13: the byte selects the row because the markers are distinct, and the row writes the phase alone. -/
theorem dleOnlySwitchesToTheEscapePhase : Obligations.DleOnlySwitchesToTheEscapePhase := by
  refine ⟨fun e he => ?decoding, exec_dle⟩
  case decoding =>
    obtain ⟨⟨-, etx_ne_dle, -⟩, -⟩ := he
    rw [decode_rdByte, decodeRdByte_dle etx_ne_dle]

end Sys2Proof
end

section
/-! The Poll-Response Encoder's Build (spec/42_poll_response_encoder.md R151 to R155): the frame the model assembles is the wire
frame of the statements, and what the two stores of Build leave in each cell. -/

namespace Sys2Proof

open Sys2Proof.Machine

/-! ## The frame as the statements write it (R72, R76) -/

theorem wirePayload_eq_escape (c : Config) (p : List Byte) : wirePayload c p = escape c p :=
  (escape_eq_flatMap c p).symm

theorem wireFrame_eq_frameBytes (c : Config) (n : Nat) (t : Byte) (p : List Byte) :
    wireFrame c n t p = frameBytes c (addrByte n) t p := by
  rw [wireFrame, wirePayload_eq_escape]
  rfl

theorem responseBytes_eq_wireFrame (s : State) (d : List Byte) :
    responseBytes s d = wireFrame s.cfg s.address 0x52#8 d := by
  rw [wireFrame_eq_frameBytes]
  rfl

/-! ## The cells of a buffer after a store from index 0 on -/

theorem getElem?_ioBytes (m : Memory) {n i : Nat} (h : i < n) : (ioBytes m n)[i]? = some (ioByte m i) := by
  simp [ioBytes, h]

theorem ioByte_ioStore_of_lt (m : Memory) {bs : List Byte} {i : Nat} (h : i < bs.length) :
    ioByte (ioStore m bs) i = bs[i] := by
  have stored := Memory.read_writeList 0#8 bs m 0 i h
  rwa [Nat.zero_add] at stored

theorem find_msgStore_zero_of_lt (m : Memory) {bs : List Byte} {i : Nat} (h : i < bs.length) :
    (msgStore m 0 bs).find i = bs[i]? := by
  have stored := Memory.find_writeList_none bs m 0 i h
  rwa [Nat.zero_add, ← List.getElem?_eq_getElem h] at stored

theorem find_msgStore_zero_of_le (m : Memory) {bs : List Byte} {i : Nat} (h : bs.length ≤ i) :
    (msgStore m 0 bs).find i = m.find i :=
  Memory.find_writeList_other none bs m 0 i (.inr (by omega))

/-! ## Build -/

/-- The fields Build writes; every other one is `s`'s. -/
theorem assemble_frame (f : List Byte) (s : State) :
    assemble f s = { s with
      msg := (assemble f s).msg, inputBits := (assemble f s).inputBits, txLen := (assemble f s).txLen,
      txPos := (assemble f s).txPos, phase := .tx } := rfl

/-- The clear of R153, on the bytes it takes. -/
theorem ioByte_assemble_of_lt (f : List Byte) {s : State} {i : Nat} (h : i < s.inCount) :
    ioByte (assemble f s).inputBits i = 0#8 := by
  have cleared : i < (List.replicate s.inCount (0#8 : Byte)).length := by rwa [List.length_replicate]
  rw [assemble_inputBits, ioByte_ioStore_of_lt _ cleared, List.getElem_replicate]

/-- The clear of R153, past the bytes it takes. -/
theorem ioByte_assemble_of_le (f : List Byte) {s : State} {i : Nat} (h : s.inCount ≤ i) :
    ioByte (assemble f s).inputBits i = ioByte s.inputBits i := by
  rw [assemble_inputBits, ioByte_ioStore_other _ _ (by rwa [List.length_replicate])]

/-- R155: an admissible `MSG_CAP` has room for a response of `IO_CAP` inputs, each of them escaped. -/
theorem build_eq_assemble {s : State} (hc : s.cfg.Admissible) (hn : s.inCount ≤ s.cfg.ioCap) :
    build s = .next (assemble (wireFrame s.cfg s.address 0x52#8 (ioBytes s.inputBits s.inCount)) s) := by
  obtain ⟨-, -, room_for_io_cap, -⟩ := hc
  obtain ⟨t, built⟩ := build_completes (s := s) (by omega)
  obtain ⟨-, assembled⟩ := build_next built
  rw [built, assembled, responseBytes_eq_wireFrame]

/-- Settles O28: Build completes as one store of the wire frame and one of zeros, and each clause reads one of the two stores. -/
theorem buildAssemblesAndClears : Obligations.BuildAssemblesAndClears := by
  intro s hc hn
  refine ⟨_, ioBytes s.inputBits s.inCount, build_eq_assemble hc hn, ioBytes_length _ _, ?taken, assemble_frame _ s,
    ?placed, ?above, ?cleared, ?kept⟩
  case taken => exact fun i hi => getElem?_ioBytes s.inputBits hi
  case placed => exact fun i hi => find_msgStore_zero_of_lt s.msg hi
  case above => exact fun i hi => find_msgStore_zero_of_le s.msg hi
  case cleared => exact fun i hi => ioByte_assemble_of_lt _ hi
  case kept => exact fun i hi => ioByte_assemble_of_le _ hi

end Sys2Proof
end

section
/-! Decoding (spec/30_encoding.md R85, R86): what a byte selects in each phase, de-escaping as the inverse of escaping, the frame
map over a whole frame, and the obligations about the decoder and the encoder. -/

namespace Sys2Proof

open Sys2Proof.Machine

/-! ## A byte in the read loop (R85) -/

theorem decodeRdByte_stx (c : Config) : decodeRdByte c Config.stx = .stx := if_pos rfl

theorem decodeRdByte_etx {c : Config} (etx_ne_stx : c.etx ≠ Config.stx) : decodeRdByte c c.etx = .etx := by
  rw [decodeRdByte, if_neg etx_ne_stx, if_pos rfl]

theorem decodeRdByte_syn {c : Config} (hc : c.Admissible) : decodeRdByte c c.syn = .syn := by
  obtain ⟨⟨-, -, etx_ne_syn, syn_ne_stx, syn_ne_dle⟩, -⟩ := hc
  rw [decodeRdByte, if_neg syn_ne_stx, if_neg etx_ne_syn.symm, if_neg syn_ne_dle, if_pos rfl]

theorem decodeRdByte_data {c : Config} {b : Byte} (h1 : b ≠ Config.stx) (h2 : b ≠ c.etx) (h3 : b ≠ Config.dle)
    (h4 : b ≠ c.syn) : decodeRdByte c b = .data b := by
  rw [decodeRdByte, if_neg h1, if_neg h2, if_neg h3, if_neg h4]

theorem isPlain_iff (c : Config) (b : Byte) :
    isPlain c b = true ↔ b ≠ Config.stx ∧ b ≠ c.etx ∧ b ≠ Config.dle ∧ b ≠ c.syn := by
  simp [isPlain, and_assoc]

/-! ## A byte in the header and in the flush (R85, R105, R106, R139) -/

theorem isAddrByte_iff (n : Nat) (b : Byte) : isAddrByte n b = true ↔ b = addrByte n := by
  simp [isAddrByte, addrByte]

theorem isAddrByte_false_iff (n : Nat) (b : Byte) : isAddrByte n b = false ↔ b ≠ addrByte n := by
  rw [← Bool.not_eq_true, isAddrByte_iff]

theorem isBadType_iff (t : Byte) :
    isBadType t = true ↔ t ≠ Config.letterI ∧ t ≠ Config.letterP ∧ t ≠ Config.letterR ∧ t ≠ Config.letterT := by
  simp [isBadType, and_assoc]

theorem decodeRdType_bad {t : Byte} (h : isBadType t = true) : decodeRdType t = .typeBad t := by
  obtain ⟨not_i, not_p, not_r, not_t⟩ := (isBadType_iff t).1 h
  rw [decodeRdType, if_neg not_i, if_neg not_p, if_neg not_r, if_neg not_t]

theorem decodeFlush_etx (c : Config) : decodeFlush c c.etx = .flEnd := if_pos rfl

theorem decodeFlush_skip {c : Config} {b : Byte} (h : b ≠ c.etx) : decodeFlush c b = .flSkip b := if_neg h

theorem decode_rdType (e : Env) (b : Byte) : decode e (.byte .rdType b) = .ok (decodeRdType b) := rfl

theorem decode_rdEsc (e : Env) (b : Byte) : decode e (.byte .rdEsc b) = .ok (.escLit b) := rfl

theorem decode_flush (e : Env) (b : Byte) : decode e (.byte .flush b) = .ok (decodeFlush e.cfg b) := rfl

/-! ## Encoding what a byte decodes to -/

theorem encode_decodeRdByte (e : Env) (b : Byte) :
    wellFormed e (decodeRdByte e.cfg b) = true ∧ encode e.cfg (decodeRdByte e.cfg b) = .byte .rdByte b := by
  unfold decodeRdByte
  split_ifs with is_stx is_etx is_dle is_syn
  · exact ⟨rfl, by rw [is_stx]; rfl⟩
  · exact ⟨rfl, by rw [is_etx]; rfl⟩
  · exact ⟨rfl, by rw [is_dle]; rfl⟩
  · exact ⟨rfl, by rw [is_syn]; rfl⟩
  · exact ⟨(isPlain_iff e.cfg b).2 ⟨is_stx, is_etx, is_dle, is_syn⟩, rfl⟩

theorem encode_decodeRdAddr (e : Env) (b : Byte) :
    wellFormed e (decodeRdAddr e.address b) = true ∧ encode e.cfg (decodeRdAddr e.address b) = .byte .rdAddr b := by
  unfold decodeRdAddr
  split_ifs with own
  · exact ⟨(isAddrByte_iff _ _).2 own, rfl⟩
  · exact ⟨by simp [wellFormed, (isAddrByte_false_iff _ _).2 own], rfl⟩

theorem encode_decodeRdType (e : Env) (b : Byte) :
    wellFormed e (decodeRdType b) = true ∧ encode e.cfg (decodeRdType b) = .byte .rdType b := by
  unfold decodeRdType
  split_ifs with is_i is_p is_r is_t
  · exact ⟨rfl, by rw [is_i]; rfl⟩
  · exact ⟨rfl, by rw [is_p]; rfl⟩
  · exact ⟨rfl, by rw [is_r]; rfl⟩
  · exact ⟨rfl, by rw [is_t]; rfl⟩
  · exact ⟨(isBadType_iff b).2 ⟨is_i, is_p, is_r, is_t⟩, rfl⟩

theorem encode_decodeFlush (e : Env) (b : Byte) :
    wellFormed e (decodeFlush e.cfg b) = true ∧ encode e.cfg (decodeFlush e.cfg b) = .byte .flush b := by
  unfold decodeFlush
  split_ifs with is_etx
  · exact ⟨rfl, by rw [is_etx]; rfl⟩
  · exact ⟨by simp [wellFormed, is_etx], rfl⟩

/-- Settles O3, phase by phase: IDLE and TX decode no byte, RD_ESC keeps it, and the other four tables invert on their rows. -/
theorem decodedBytesEncodeBack : Obligations.DecodedBytesEncodeBack := by
  intro e p b i h
  cases p with
  | idle => cases h
  | tx => cases h
  | rdByte => cases h; exact encode_decodeRdByte e b
  | rdAddr => cases h; exact encode_decodeRdAddr e b
  | rdType => cases h; exact encode_decodeRdType e b
  | rdEsc => cases h; exact ⟨rfl, rfl⟩
  | flush => cases h; exact encode_decodeFlush e b

/-- Settles O4: the phases that read a byte decode every one, and in IDLE and TX the decoder answers an error. -/
theorem bytesDecodeExactlyInThePhasesThatRead : Obligations.BytesDecodeExactlyInThePhasesThatRead := by
  intro e p b
  constructor
  · rintro ⟨i, h⟩
    constructor <;> rintro rfl <;> cases h
  · exact fun reads => decode_byte_isOk reads b

/-- Settles O1: each of the ten words is decoded by evaluation. -/
theorem tableWordsDecodeToTheirRows : Obligations.TableWordsDecodeToTheirRows := by
  unfold Obligations.TableWordsDecodeToTheirRows
  decide

/-- Settles O19: the end marker, decoded in each of the five phases that read. -/
theorem endMarkerEndsAParseOnlyInTheReadLoop : Obligations.EndMarkerEndsAParseOnlyInTheReadLoop := by
  intro e hc haddr
  obtain ⟨⟨etx_ne_stx, -⟩, -⟩ := hc
  refine ⟨?readLoop, decode_rdEsc _ _, ?flush, ?address, ?type⟩
  case readLoop => rw [decode_rdByte, decodeRdByte_etx etx_ne_stx]
  case flush => rw [decode_flush, decodeFlush_etx]
  case address => exact fun h => decode_rdAddr_of_ne (mt (eq_addrByte_iff haddr _).1 h)
  case type => exact fun h1 h2 h3 h4 => by rw [decode_rdType, decodeRdType_bad ((isBadType_iff _).2 ⟨h1, h2, h3, h4⟩)]

/-! ## De-escaping (R77, R78, R84) -/

theorem unescape_etx (c : Config) (r : List Byte) : unescape c false (c.etx :: r) = .ok ([], r) := by
  simp [unescape]

theorem unescape_verbatim {c : Config} {r p q : List Byte} (v : Byte) (h : unescape c false r = .ok (p, q)) :
    unescape c true (v :: r) = .ok (v :: p, q) := by
  simp [unescape, h]

theorem unescape_dle {c : Config} (etx_ne_dle : c.etx ≠ Config.dle) (r : List Byte) :
    unescape c false (Config.dle :: r) = unescape c true r := by
  have dle_ne_stx : Config.dle ≠ Config.stx := by decide
  rw [unescape, if_neg etx_ne_dle.symm, if_neg dle_ne_stx, if_pos rfl]

theorem unescape_plain {c : Config} {v : Byte} {r p q : List Byte} (hv : needsEscape c v = false)
    (h : unescape c false r = .ok (p, q)) : unescape c false (v :: r) = .ok (v :: p, q) := by
  have not_marker : ¬ (v = Config.stx ∨ v = c.etx ∨ v = Config.dle) := by simp [← needsEscape_iff, hv]
  simp only [not_or] at not_marker
  obtain ⟨not_stx, not_etx, not_dle⟩ := not_marker
  rw [unescape, if_neg not_etx, if_neg not_stx, if_neg not_dle, h]

/-- De-escaping an escaped payload and its end marker gives the payload back and leaves what follows (R77). -/
theorem unescape_escape {c : Config} (etx_ne_dle : c.etx ≠ Config.dle) (p rest : List Byte) :
    unescape c false (escape c p ++ c.etx :: rest) = .ok (p, rest) := by
  induction p with
  | nil => exact unescape_etx c rest
  | cons v r ih =>
    by_cases hv : needsEscape c v = true
    · rw [escape_cons_of_needsEscape hv, List.cons_append, List.cons_append, unescape_dle etx_ne_dle,
        unescape_verbatim v ih]
    · have plain := Bool.eq_false_iff.2 hv
      rw [escape_cons_of_plain plain, List.cons_append, unescape_plain plain ih]

/-- De-escaping stops at the end marker: what is appended behind goes to the rest (R84). -/
theorem unescape_append {c : Config} {esc : Bool} {bs p q : List Byte} (more : List Byte)
    (h : unescape c esc bs = .ok (p, q)) : unescape c esc (bs ++ more) = .ok (p, q ++ more) := by
  induction bs generalizing esc p with
  | nil => cases esc <;> cases h
  | cons b r ih =>
    cases esc with
    | true =>
      rw [unescape] at h
      split at h
      · rename_i p' q' hr
        cases h
        exact unescape_verbatim b (ih hr)
      · cases h
    | false =>
      rw [unescape] at h
      rw [List.cons_append, unescape]
      split_ifs at h ⊢ with is_etx is_stx is_dle
      · cases h
        rfl
      · exact ih h
      · split at h
        · rename_i p' q' hr
          cases h
          rw [ih hr]
        · cases h

/-! ## The frame map (R72, R86) -/

theorem decodeBody_escape {c : Config} (etx_ne_dle : c.etx ≠ Config.dle) (k : List Byte → Instr) {p : List Byte}
    (hp : p.length ≤ c.msgCap) (rest : List Byte) :
    decodeBody c k (escape c p ++ c.etx :: rest) = .ok (k p, rest) := by
  rw [decodeBody, unescape_escape etx_ne_dle]
  exact if_pos hp

theorem decodeBody_append {c : Config} {k : List Byte → Instr} {bs rest : List Byte} {i : Instr} (more : List Byte)
    (h : decodeBody c k bs = .ok (i, rest)) : decodeBody c k (bs ++ more) = .ok (i, rest ++ more) := by
  rw [decodeBody] at h
  split at h
  · rename_i p q hu
    rw [decodeBody, unescape_append more hu]
    split at h
    · rename_i fits
      cases h
      exact if_pos fits
    · cases h
  · cases h

/-- What the frame map does behind this node's address byte: the type byte selects the row. -/
def decodeTyped (c : Config) (a t : Byte) (r : List Byte) : Except DecodeError (Instr × List Byte) :=
  if t = Config.letterI then decodeBody c (.frameI a) r
  else if t = Config.letterP then decodeBody c (.frameP a) r
  else if t = Config.letterR then decodeBody c (.frameR a) r
  else if t = Config.letterT then decodeBody c (.frameT a) r
  else .ok (.frameBadtype a t, r)

theorem decodeFrame_own {e : Env} {a : Byte} (ha : a = addrByte e.address) (t : Byte) (r : List Byte) :
    decodeFrame e (e.cfg.syn :: e.cfg.syn :: Config.stx :: a :: t :: r) = decodeTyped e.cfg a t r := by
  simp [decodeFrame, decodeTyped, ha]

theorem decodeFrame_foreign {e : Env} {a : Byte} (ha : a ≠ addrByte e.address) (r : List Byte) :
    decodeFrame e (e.cfg.syn :: e.cfg.syn :: Config.stx :: a :: r) = .ok (.frameForeign a, r) := by
  simp [decodeFrame, ha]

/-- Everything a stream that decodes to a frame can be: this node's frame, or another node's. -/
theorem decodeFrame_cases {e : Env} {bs rest : List Byte} {i : Instr} (h : decodeFrame e bs = .ok (i, rest)) :
    (∃ a t r, a = addrByte e.address ∧ bs = e.cfg.syn :: e.cfg.syn :: Config.stx :: a :: t :: r ∧
      decodeTyped e.cfg a t r = .ok (i, rest)) ∨
    (∃ a, a ≠ addrByte e.address ∧ bs = e.cfg.syn :: e.cfg.syn :: Config.stx :: a :: rest ∧ i = .frameForeign a) := by
  unfold decodeFrame at h
  split at h
  · rename_i f1 f2 m a r
    split at h
    · rename_i header
      obtain ⟨rfl, rfl, rfl⟩ := header
      split at h
      · rename_i own
        split at h
        · cases h
        · rename_i t r'
          exact .inl ⟨a, t, r', own, rfl, h⟩
      · rename_i foreign
        cases h
        exact .inr ⟨a, foreign, rfl, rfl⟩
    · cases h
  · cases h

theorem decodeTyped_append {c : Config} {a t : Byte} {r rest : List Byte} {i : Instr} (more : List Byte)
    (h : decodeTyped c a t r = .ok (i, rest)) : decodeTyped c a t (r ++ more) = .ok (i, rest ++ more) := by
  unfold decodeTyped at h ⊢
  split_ifs at h ⊢
  · exact decodeBody_append more h
  · exact decodeBody_append more h
  · exact decodeBody_append more h
  · exact decodeBody_append more h
  · cases h
    rfl

/-- Settles O5: the header is read byte by byte, and de-escaping stops at the end marker. -/
theorem frameDecodingNeverLooksBehindTheFrame : Obligations.FrameDecodingNeverLooksBehindTheFrame := by
  intro e bs more rest i h
  rcases decodeFrame_cases h with ⟨a, t, r, own, rfl, typed⟩ | ⟨a, foreign, rfl, rfl⟩
  · simp only [List.cons_append]
    rw [decodeFrame_own own, decodeTyped_append more typed]
  · simp only [List.cons_append]
    rw [decodeFrame_foreign foreign]

/-! ## Decoding what was encoded -/

theorem decodeTyped_bad (c : Config) (a : Byte) {t : Byte} (h : isBadType t = true) (r : List Byte) :
    decodeTyped c a t r = .ok (.frameBadtype a t, r) := by
  obtain ⟨not_i, not_p, not_r, not_t⟩ := (isBadType_iff t).1 h
  rw [decodeTyped, if_neg not_i, if_neg not_p, if_neg not_r, if_neg not_t]

theorem decode_frame_of_decodeFrame {e : Env} {bs : List Byte} {i : Instr} (h : decodeFrame e bs = .ok (i, [])) :
    decode e (.frame bs) = .ok i := by
  simp [decode, h]

/-- A frame with a payload decodes to the row its type letter selects. -/
theorem decode_frameBytes {e : Env} {a t : Byte} {p : List Byte} {k : List Byte → Instr} (hc : e.cfg.Admissible)
    (own : isAddrByte e.address a = true) (fits : p.length ≤ e.cfg.msgCap)
    (selects : ∀ r, decodeTyped e.cfg a t r = decodeBody e.cfg k r) :
    decode e (.frame (frameBytes e.cfg a t p)) = .ok (k p) := by
  obtain ⟨⟨-, etx_ne_dle, -⟩, -⟩ := hc
  apply decode_frame_of_decodeFrame
  rw [frameBytes, List.append_assoc]
  exact (decodeFrame_own ((isAddrByte_iff _ _).1 own) t _).trans
    ((selects _).trans (decodeBody_escape etx_ne_dle k fits []))

/-- What is asked of a frame row with a payload. -/
theorem wellFormed_frame {e : Env} {a : Byte} {p : List Byte}
    (wf : (isAddrByte e.address a && decide (p.length ≤ e.cfg.msgCap)) = true) :
    isAddrByte e.address a = true ∧ p.length ≤ e.cfg.msgCap := by
  rwa [Bool.and_eq_true, decide_eq_true_eq] at wf

/-- Settles O2, row by row: a byte row is inverted by its phase's table, a frame row by the frame map. -/
theorem decodingAnEncodedInstructionGivesItBack : Obligations.DecodingAnEncodedInstructionGivesItBack := by
  intro e i hc wf
  obtain ⟨⟨etx_ne_stx, etx_ne_dle, -⟩, -⟩ := id hc
  cases i with
  | stx => exact congrArg Except.ok (decodeRdByte_stx e.cfg)
  | etx => exact congrArg Except.ok (decodeRdByte_etx etx_ne_stx)
  | dle => exact congrArg Except.ok (decodeRdByte_dle etx_ne_dle)
  | syn => exact congrArg Except.ok (decodeRdByte_syn hc)
  | data b =>
    obtain ⟨not_stx, not_etx, not_dle, not_syn⟩ := (isPlain_iff e.cfg b).1 wf
    exact congrArg Except.ok (decodeRdByte_data not_stx not_etx not_dle not_syn)
  | addrMatch b => exact decode_rdAddr_of_eq ((isAddrByte_iff _ _).1 wf)
  | addrForeign b => exact decode_rdAddr_of_ne ((isAddrByte_false_iff _ _).1 (by simpa [wellFormed] using wf))
  | typeI => rfl
  | typeP => rfl
  | typeR => rfl
  | typeT => rfl
  | typeBad b => exact congrArg Except.ok (decodeRdType_bad wf)
  | escLit b => rfl
  | flEnd => exact congrArg Except.ok (decodeFlush_etx e.cfg)
  | flSkip b => exact congrArg Except.ok (decodeFlush_skip (by simpa [wellFormed] using wf))
  | flEmpty => rfl
  | tx => rfl
  | invoke => rfl
  | setAddress a => rfl
  | configure ic oc ii io => rfl
  | frameI a p =>
    obtain ⟨own, fits⟩ := wellFormed_frame wf
    exact decode_frameBytes hc own fits fun _ => rfl
  | frameP a p =>
    obtain ⟨own, fits⟩ := wellFormed_frame wf
    exact decode_frameBytes hc own fits fun _ => rfl
  | frameR a p =>
    obtain ⟨own, fits⟩ := wellFormed_frame wf
    exact decode_frameBytes hc own fits fun _ => rfl
  | frameT a p =>
    obtain ⟨own, fits⟩ := wellFormed_frame wf
    exact decode_frameBytes hc own fits fun _ => rfl
  | frameBadtype a t =>
    obtain ⟨own, bad⟩ := Bool.and_eq_true_iff.1 wf
    exact decode_frame_of_decodeFrame
      ((decodeFrame_own ((isAddrByte_iff _ _).1 own) t []).trans (decodeTyped_bad e.cfg a bad []))
  | frameForeign a =>
    exact decode_frame_of_decodeFrame
      (decodeFrame_foreign ((isAddrByte_false_iff _ _).1 (by simpa [wellFormed] using wf)) [])

end Sys2Proof
end

section
/-! The rows that act on one received byte (spec/40_frame_parser.md R104 to R112, spec/41_dispatcher.md R131 to R139): what each
does to the state, one rule for Append and one for each way a parse ends, and the obligations about single rows. -/

namespace Sys2Proof

open Sys2Proof.Machine

/-! ## The meaning of each row -/

theorem exec_stx (s : State) : exec .stx s = .next { s with inData := true, phase := .rdAddr } := rfl

theorem exec_etx (s : State) : exec .etx s = terminate s := rfl

theorem exec_syn_of_data {s : State} (h : s.inData = true) :
    exec .syn s = append s.cfg.syn { s with phase := .rdByte } := by
  rw [show exec .syn s = execSyn s from rfl, execSyn, if_pos h]

theorem exec_syn_of_noData {s : State} (h : s.inData = false) : exec .syn s = .next { s with phase := .rdByte } := by
  rw [show exec .syn s = execSyn s from rfl, execSyn, if_neg (by simp [h])]

theorem exec_data (b : Byte) (s : State) : exec (.data b) s = append b { s with phase := .rdByte } := rfl

theorem exec_addrMatch (b : Byte) (s : State) : exec (.addrMatch b) s = .next { s with phase := .rdType } := rfl

theorem exec_typeBad (b : Byte) (s : State) : exec (.typeBad b) s = raiseClass .error s := rfl

theorem exec_flEnd (s : State) : exec .flEnd s = .next { s with phase := .idle } := rfl

theorem exec_flSkip (b : Byte) (s : State) : exec (.flSkip b) s = .next { s with phase := .flush } := rfl

theorem exec_flEmpty (s : State) : exec .flEmpty s = .next { s with phase := .idle } := rfl

/-- Writing the phase a state already has changes nothing. -/
theorem withPhase_self {s : State} {p : Phase} (h : s.phase = p) : { s with phase := p } = s := by
  subst h
  rfl

/-! ## Append and the ends of a parse, as the statements describe them -/

theorem terminated_of_msg {s t : State} (h : t.msg = (storeSentinel s).msg) : Terminated s t := by
  refine ⟨?sentinel, ?below, ?above⟩
  case sentinel => simp [h, find_storeSentinel, -storeSentinel_msg]
  case below => exact fun i hi => by rw [h, find_storeSentinel, if_pos hi]
  case above => exact fun i hi => by rw [h, find_storeSentinel, if_neg (by omega), if_neg (by omega)]

theorem raiseClass_flushed {c : Classification} {s : State} (hc : c = .read ∨ c = .error ∨ c = .ignore)
    (hi : s.idx ≤ s.cfg.msgCap) : ∃ t, raiseClass c s = .next t ∧ Flushed c s t :=
  ⟨_, raiseClass_flushes hc hi, rfl, terminated_of_msg rfl⟩

theorem append_appended {b : Byte} {s : State} (hi : s.idx < s.cfg.msgCap) :
    ∃ t, append b { s with phase := .rdByte } = .next t ∧ Appended b s t := by
  refine ⟨_, append_fits hi, rfl, ?here, ?elsewhere⟩
  case here => simp [Memory.find_write]
  case elsewhere => exact fun i other => by simp [Memory.find_write, other]

theorem append_flushed {b : Byte} {s : State} (hi : s.idx = s.cfg.msgCap) :
    ∃ t, append b { s with phase := .rdByte } = .next t ∧ Flushed .error s t :=
  ⟨_, append_overruns hi, rfl, terminated_of_msg rfl⟩

/-! ## The parser's obligations -/

/-- Settles O12: the start marker is tested first, and the row writes the data mode and the phase. -/
theorem stxOpensAHeader : Obligations.StxOpensAHeader :=
  ⟨fun e => congrArg Except.ok (decodeRdByte_stx e.cfg), exec_stx⟩

/-- Settles O14: by the data mode and the room left. -/
theorem synIsDataOnlyInDataMode : Obligations.SynIsDataOnlyInDataMode := by
  refine ⟨fun e he => congrArg Except.ok (decodeRdByte_syn he), fun s hs => ⟨?dropped, ?appended, ?overrun⟩⟩
  case dropped => exact fun hd => by rw [exec_syn_of_noData hd, withPhase_self hs]
  case appended => exact fun hd hi => exec_syn_of_data hd ▸ append_appended hi
  case overrun => exact fun hd hi => exec_syn_of_data hd ▸ append_flushed hi

/-- Settles O15: the row is Append, whatever the data mode. -/
theorem otherBytesAreAppendedInEitherMode : Obligations.OtherBytesAreAppendedInEitherMode :=
  ⟨fun _ _ h1 h2 h3 h4 => congrArg Except.ok (decodeRdByte_data h1 h2 h3 h4),
    fun _ _ _ => ⟨append_appended, append_flushed⟩⟩

/-- Settles O16: in RD_ESC every byte selects the same row, which is Append. -/
theorem escapedBytesAreAppendedVerbatim : Obligations.EscapedBytesAreAppendedVerbatim :=
  ⟨decode_rdEsc, fun _ _ _ => ⟨append_appended, append_flushed⟩⟩

/-- Settles O17: the comparison of bytes is one of numbers, and the mismatch is taken as *ignore*. -/
theorem addressByteIsTakenByPosition : Obligations.AddressByteIsTakenByPosition := by
  refine ⟨fun e a haddr => ?decoding, fun s a => ⟨exec_addrMatch a s, fun hi => ?foreign⟩⟩
  case decoding =>
    split_ifs with own
    · exact decode_rdAddr_of_eq ((eq_addrByte_iff haddr a).2 own)
    · exact decode_rdAddr_of_ne (mt (eq_addrByte_iff haddr a).1 own)
  case foreign => exact raiseClass_flushed (.inr (.inr rfl)) hi

/-- Settles O18: the table of RD_TYPE as it stands, and its five kinds of row. -/
theorem typeSelectorGivesTheClassification : Obligations.TypeSelectorGivesTheClassification :=
  ⟨fun _ _ => rfl, fun _ => ⟨rfl, rfl, rfl, rfl, fun _ hi => raiseClass_flushed (.inr (.inl rfl)) hi⟩⟩

/-- Settles O25: one row for the end marker, one for every other byte, one for no byte; each writes the phase alone. -/
theorem flushStoresNothing : Obligations.FlushStoresNothing := by
  refine ⟨fun e b => ?decoding, fun s hs => ⟨exec_flEnd s, fun b => ?skip, exec_flEmpty s⟩⟩
  case decoding => rw [decode_flush, decodeFlush]
  case skip => rw [exec_flSkip, withPhase_self hs]

/-! ## The reaction a classification selects (R130) -/

theorem react_of_none {s : State} (h : s.cls = .none) : react s = .next { s with phase := .idle } := by
  simp only [react, h, reactNone]

theorem react_of_init {s : State} (h : s.cls = .init) : react s = reactInit s := by simp only [react, h]

theorem react_of_poll {s : State} (h : s.cls = .poll) : react s = reactPoll s := by simp only [react, h]

theorem react_of_transmit {s : State} (h : s.cls = .transmit) : react s = reactTransmit s := by simp only [react, h]

theorem exec_etx_reacts {s : State} (hi : s.idx ≤ s.cfg.msgCap) : exec .etx s = react (storeSentinel s) := by
  rw [exec_etx, terminate_runs hi]

/-- Settles O20: Terminate is the sentinel and then a change of phase. -/
theorem endMarkerWithNothingPendingReturns : Obligations.EndMarkerWithNothingPendingReturns := by
  intro s hcls hi
  have runs := (exec_etx_reacts hi).trans (react_of_none (s := storeSentinel s) hcls)
  exact ⟨_, runs, rfl, terminated_of_msg rfl⟩

/-- Settles O24: the three classes are the ones whose reaction is the flush, so the end marker takes the class it finds. -/
theorem rejectedParsesEnterTheFlush : Obligations.RejectedParsesEnterTheFlush := by
  intro s hcls hi
  have same : classify s.cls s = s := rfl
  have flushed := raiseClass_flushed hcls hi
  rwa [raiseClass, same] at flushed

/-! ## The delay of an Initialization frame (R132) -/

theorem msgByte_of_find {s : State} {i : Nat} {b : Byte} (h : s.msg.find i = some b) : msgByte s i = b := by
  simp [msgByte, h]

/-- Below the sentinel the payload byte is read, at its place 0x00. -/
theorem msgByte_storeSentinel_of_lt {s : State} {i : Nat} {b : Byte} (hi : i < s.idx) (h : s.msg.find i = some b) :
    msgByte (storeSentinel s) i = b :=
  msgByte_of_find (by rw [find_storeSentinel, if_pos hi, h])

theorem msgByte_storeSentinel_idx (s : State) : msgByte (storeSentinel s) s.idx = 0#8 :=
  msgByte_of_find (terminated_of_msg rfl).1

/-- The delay bytes lie inside an admissible `MSG_CAP`. -/
theorem delay_position_fits {c : Config} (hc : c.Admissible) : c.initDelayOffset + 1 ≤ c.msgCap := by
  obtain ⟨-, io_cap_pos, room, offset_le, -⟩ := hc
  omega

/-- Settles O21: the two bytes are read after the sentinel is written, so each clause is a read below it or at its place. -/
theorem initializationSetsTheDelay : Obligations.InitializationSetsTheDelay := by
  intro s hc hcls hi
  have reacts := (exec_etx_reacts hi).trans (react_of_init (s := storeSentinel s) hcls)
  have runs := reacts.trans (reactInit_completes (s := storeSentinel s) (delay_position_fits hc))
  refine ⟨_, msgByte (storeSentinel s) s.cfg.initDelayOffset, msgByte (storeSentinel s) (s.cfg.initDelayOffset + 1),
    runs, rfl, terminated_of_msg rfl, ?high, ?highSentinel, ?low, ?lowSentinel⟩
  case high => exact fun b below found => msgByte_storeSentinel_of_lt below found
  case highSentinel => exact fun here => by rw [here]; exact msgByte_storeSentinel_idx s
  case low => exact fun b below found => msgByte_storeSentinel_of_lt below found
  case lowSentinel => exact fun here => by rw [here]; exact msgByte_storeSentinel_idx s

/-! ## *poll*: sample, invert, build (R134) -/

theorem flipped_eq_invertIf (f : Bool) (bs : List Byte) : flipped f bs = invertIf f bs := rfl

theorem wireFrame_length (c : Config) (n : Nat) (t : Byte) (p : List Byte) :
    (wireFrame c n t p).length = 6 + (escape c p).length := by
  rw [wireFrame_eq_frameBytes, frameBytes_length]

theorem wireFrame_length_le (c : Config) (n : Nat) (t : Byte) (p : List Byte) :
    (wireFrame c n t p).length ≤ 6 + 2 * p.length := by
  rw [wireFrame_length]
  have := escape_length_le c p
  omega

/-- The sampler answers the bytes that wait in `sampleq` first (R11). -/
theorem sampleOf_sampleAnswer (s : State) : SampleOf s (sampleAnswer s s.inCount) := by
  refine ⟨sampleAnswer_length s s.inCount, ?_⟩
  rcases Nat.le_total s.inCount s.sampleq.length with enough | short
  · rw [List.take_of_length_le (by simpa using enough)]
    simp [sampleAnswer, Nat.sub_eq_zero_of_le enough]
  · rw [sampleAnswer, List.take_of_length_le short]
    exact List.take_left

/-- The bytes Build takes are the sampled ones, inverted if asked. -/
theorem ioBytes_sampleInputs (s : State) :
    ioBytes (sampleInputs s).inputBits s.inCount = flipped s.invIn (sampleAnswer s s.inCount) := by
  have read_back := ioBytes_ioStore s.inputBits (invertIf s.invIn (sampleAnswer s s.inCount))
  rwa [invertIf_length, sampleAnswer_length] at read_back

theorem reactPoll_assembles {s : State} (hc : s.cfg.Admissible) (hn : s.inCount ≤ s.cfg.ioCap) :
    reactPoll s = .next (assemble
      (wireFrame s.cfg s.address 0x52#8 (flipped s.invIn (sampleAnswer s s.inCount))) (sampleInputs s)) := by
  rw [reactPoll_builds hn, build_eq_assemble (s := sampleInputs s) hc hn]
  simp only [sampleInputs_cfg, sampleInputs_address, sampleInputs_inCount, ioBytes_sampleInputs]

/-- Past the count neither the sampling nor the clearing writes a cell. -/
theorem ioByte_assemble_sampleInputs (f : List Byte) {s : State} {i : Nat} (h : s.inCount ≤ i) :
    ioByte (assemble f (sampleInputs s)).inputBits i = ioByte s.inputBits i := by
  rw [ioByte_assemble_of_le f (by simpa using h), sampleInputs_inputBits, ioByte_ioStore_other _ _ (by simpa using h)]

/-- Settles O22: the reaction is Build after the sampling, on the state with the sentinel. -/
theorem pollBuildsTheEscapedResponse : Obligations.PollBuildsTheEscapedResponse := by
  intro s hc hcls hi hn
  have sampled : (flipped s.invIn (sampleAnswer (storeSentinel s) s.inCount)).length = s.inCount := by
    rw [flipped_eq_invertIf, invertIf_length, sampleAnswer_length]
  have reacts := (exec_etx_reacts hi).trans (react_of_poll (s := storeSentinel s) hcls)
  have runs := reacts.trans (reactPoll_assembles (s := storeSentinel s) hc hn)
  refine ⟨_, sampleAnswer (storeSentinel s) s.inCount, runs, sampleOf_sampleAnswer (storeSentinel s), rfl, ?placed, ?above,
    ?atLeast, ?atMost, ?cleared, ?kept⟩
  case placed => exact fun i below => find_msgStore_zero_of_lt _ below
  case above => exact fun i behind => (find_msgStore_zero_of_le _ behind).trans (find_storeSentinel s i)
  case atLeast =>
    rw [assemble_txLen, wireFrame_length]
    exact Nat.le_add_right _ _
  case atMost =>
    have bound := wireFrame_length_le s.cfg s.address 0x52#8 (flipped s.invIn (sampleAnswer (storeSentinel s) s.inCount))
    rwa [sampled] at bound
  case cleared => exact fun i below => ioByte_assemble_of_lt (s := sampleInputs (storeSentinel s)) _ below
  case kept => exact fun i behind => ioByte_assemble_sampleInputs (s := storeSentinel s) _ behind

/-! ## *transmit*: copy, invert, apply (R135) -/

theorem getElem?_msgBytes (s : State) {n i : Nat} (h : i < n) : (msgBytes s n)[i]? = some (msgByte s i) := by
  simp [msgBytes, h]

/-- An admissible `MSG_CAP` holds `IO_CAP` bytes. -/
theorem outCount_fits {s : State} (hc : s.cfg.Admissible) (hn : s.outCount ≤ s.cfg.ioCap) :
    s.outCount ≤ s.cfg.msgCap + 1 := by
  obtain ⟨-, -, room, -⟩ := hc
  omega

/-- What is applied are the bytes copied, inverted if asked. -/
theorem ioBytes_copyOutputs (s : State) :
    ioBytes (copyOutputs s).outputBits s.outCount = flipped s.invOut (msgBytes s s.outCount) := by
  have read_back := ioBytes_ioStore s.outputBits (invertIf s.invOut (msgBytes s s.outCount))
  rwa [invertIf_length, msgBytes_length] at read_back

theorem reactTransmit_applies {s : State} (hc : s.cfg.Admissible) (hn : s.outCount ≤ s.cfg.ioCap) :
    reactTransmit s =
      .next { applyOutputs (flipped s.invOut (msgBytes s s.outCount)) (copyOutputs s) with phase := .idle } := by
  rw [reactTransmit_completes hn (outCount_fits hc hn), ioBytes_copyOutputs]

/-- Settles O23: the reaction stores and applies one list, read from `msg` after the sentinel is written. -/
theorem transmitCopiesAndAppliesTheOutputs : Obligations.TransmitCopiesAndAppliesTheOutputs := by
  intro s hc hcls hi hn
  have reacts := (exec_etx_reacts hi).trans (react_of_transmit (s := storeSentinel s) hcls)
  have runs := reacts.trans (reactTransmit_applies (s := storeSentinel s) hc hn)
  have copied : (flipped s.invOut (msgBytes (storeSentinel s) s.outCount)).length = s.outCount := by
    rw [flipped_eq_invertIf, invertIf_length, msgBytes_length]
  refine ⟨_, msgBytes (storeSentinel s) s.outCount, runs, msgBytes_length _ _, rfl, terminated_of_msg rfl, ?payload,
    ?sentinel, ?stored, ?kept⟩
  case payload =>
    exact fun i b counted below found => by rw [getElem?_msgBytes _ counted, msgByte_storeSentinel_of_lt below found]
  case sentinel => exact fun counted => by rw [getElem?_msgBytes _ counted, msgByte_storeSentinel_idx]
  case stored =>
    intro i counted
    have inside : i < (flipped s.invOut (msgBytes (storeSentinel s) s.outCount)).length := by rwa [copied]
    rw [List.getElem?_eq_getElem inside]
    exact congrArg some (ioByte_ioStore_of_lt s.outputBits inside).symm
  case kept => exact fun i past => ioByte_ioStore_other s.outputBits _ (copied.trans_le past)

end Sys2Proof
end

section
/-! The calls and the frame rows (spec/43_configuration.md R170 to R175, spec/40_frame_parser.md R101, spec/30_encoding.md R86):
which are refused, and a whole frame as one end marker over the parse it leaves. -/

namespace Sys2Proof

open Sys2Proof.Machine

/-! ## The configuration calls -/

theorem clampAddress_of_le {a : Byte} (h : a.toNat ≤ 64) : clampAddress a = a.toNat := by
  rw [clampAddress_eq_min, Nat.min_eq_left h]

theorem clampAddress_of_gt {a : Byte} (h : 64 < a.toNat) : clampAddress a = 64 := by
  rw [clampAddress_eq_min, Nat.min_eq_right (Nat.le_of_lt h)]

theorem exec_configure_of_fits {s : State} {ic oc : Nat} (ii io : Bool) (h : s.phase = .idle)
    (fits : ic ≤ s.cfg.ioCap ∧ oc ≤ s.cfg.ioCap) :
    exec (.configure ic oc ii io) s =
      .next { s with inCount := ic, outCount := oc, invIn := ii, invOut := io, countsWritten := true } := by
  rw [show exec (.configure ic oc ii io) s = execConfigure ic oc ii io s from rfl, execConfigure, if_pos h, if_pos fits]

theorem exec_configure_too_large {s : State} {ic oc : Nat} (ii io : Bool) (h : s.phase = .idle)
    (large : s.cfg.ioCap < ic ∨ s.cfg.ioCap < oc) : exec (.configure ic oc ii io) s = .refused .countTooLarge := by
  rw [show exec (.configure ic oc ii io) s = execConfigure ic oc ii io s from rfl, execConfigure, if_pos h,
    if_neg (by omega)]

/-- Settles O32: the stored and the returned value are the clamp, on either side of 64. -/
theorem setAddressStoresAndReturnsTheClampedValue : Obligations.SetAddressStoresAndReturnsTheClampedValue := by
  refine fun s a hs => ⟨fun small => ?_, fun large => ?_⟩
  · rw [exec_setAddress_of_idle a hs, clampAddress_of_le small]
  · rw [exec_setAddress_of_idle a hs, clampAddress_of_gt large]

/-- Settles O33: in IDLE and within the bound the call is five assignments. -/
theorem configureStoresTheCountsAndFlags : Obligations.ConfigureStoresTheCountsAndFlags :=
  fun _ _ _ ii io hs hic hoc => exec_configure_of_fits ii io hs ⟨hic, hoc⟩

/-! ## `Invoke` (R101, R102) -/

theorem exec_invoke_empty {s : State} (h1 : s.phase = .idle) (h2 : s.addressWritten = true) (h3 : s.countsWritten = true)
    (hr : s.rxq = []) : exec .invoke s = .next { s with cls := .none } := by
  rw [show exec .invoke s = execInvoke s from rfl, execInvoke, invocation_runs _ h1 h2 h3, if_pos (rxAvail_eq_zero.2 hr)]
  exact congrArg Host.Outcome.next (withPhase_self (s := classify .none s) h1)

theorem exec_invoke_received {s : State} (h1 : s.phase = .idle) (h2 : s.addressWritten = true)
    (h3 : s.countsWritten = true) (hr : s.rxq ≠ []) : exec .invoke s = .next (loopEntry s) := by
  rw [show exec .invoke s = execInvoke s from rfl, execInvoke, invocation_runs _ h1 h2 h3,
    if_neg (mt rxAvail_eq_zero.1 hr)]

/-- Settles O31: by whether anything has been received. -/
theorem invokeReturnsAtOnceOrStartsAParse : Obligations.InvokeReturnsAtOnceOrStartsAParse :=
  fun _ h1 h2 h3 => ⟨exec_invoke_empty h1 h2 h3, exec_invoke_received h1 h2 h3⟩

/-! ## What is refused (R171, R174, R175) -/

theorem invocation_busy {s : State} (k : State → Result) (h : s.phase ≠ .idle) :
    invocation s k = .refused .callDuringInvocation := by
  rw [invocation, if_neg h]

theorem invocation_unconfigured {s : State} (k : State → Result) (h : s.phase = .idle)
    (hw : s.addressWritten = false ∨ s.countsWritten = false) : invocation s k = .refused .notConfigured := by
  rw [invocation, if_pos h, if_neg]
  rcases hw with hw | hw <;> simp [hw]

/-- An invocation is refused in these two cases only, if what it starts never is. -/
theorem invocation_refused {s : State} {k : State → Result} {r : Refusal} (hk : k s ≠ .refused r)
    (h : invocation s k = .refused r) :
    s.phase ≠ .idle ∨ s.phase = .idle ∧ (s.addressWritten = false ∨ s.countsWritten = false) := by
  by_cases idle : s.phase = .idle
  · refine .inr ⟨idle, ?_⟩
    by_contra written
    simp only [not_or, Bool.not_eq_false] at written
    rw [invocation_runs k idle written.1 written.2] at h
    exact hk h
  · exact .inl idle

theorem build_ne_refused (s : State) (r : Refusal) : build s ≠ .refused r := by
  unfold build
  split <;> simp

theorem react_ne_refused (s : State) (r : Refusal) : react s ≠ .refused r := by
  unfold react
  split
  · simp [reactNone]
  · unfold reactInit
    split <;> simp
  · unfold reactPoll
    split
    · exact build_ne_refused _ r
    · simp
  · unfold reactTransmit
    split
    · split <;> simp
    · simp
  · simp [reactRead]
  · simp [reactError]
  · simp [reactIgnore]

theorem terminate_ne_refused (s : State) (r : Refusal) : terminate s ≠ .refused r := by
  unfold terminate
  split
  · exact react_ne_refused _ r
  · simp

theorem raiseClass_ne_refused (c : Classification) (s : State) (r : Refusal) : raiseClass c s ≠ .refused r :=
  terminate_ne_refused _ r

theorem append_ne_refused (b : Byte) (s : State) (r : Refusal) : append b s ≠ .refused r := by
  unfold append
  split
  · simp
  · exact raiseClass_ne_refused _ _ r

theorem parseFrame_ne_refused (c : Classification) (p : List Byte) (s : State) (r : Refusal) :
    parseFrame c p s ≠ .refused r := by
  unfold parseFrame
  split
  · exact terminate_ne_refused _ r
  · exact raiseClass_ne_refused _ _ r

/-- A row that starts an invocation asks for it and then does something that is never refused. -/
theorem exec_of_startsInvocation {i : Instr} (hi : StartsInvocation i) :
    ∃ k : State → Result, (∀ s, exec i s = invocation s k) ∧ ∀ s r, k s ≠ .refused r := by
  rcases hi with rfl | ⟨a, p, rfl | rfl | rfl | rfl⟩ | ⟨a, t, rfl⟩ | ⟨a, rfl⟩
  · refine ⟨_, fun _ => rfl, fun s r => ?_⟩
    dsimp only
    split <;> simp
  · exact ⟨_, fun _ => rfl, parseFrame_ne_refused .init p⟩
  · exact ⟨_, fun _ => rfl, parseFrame_ne_refused .poll p⟩
  · exact ⟨_, fun _ => rfl, parseFrame_ne_refused .read p⟩
  · exact ⟨_, fun _ => rfl, parseFrame_ne_refused .transmit p⟩
  · exact ⟨_, fun _ => rfl, fun _ => raiseClass_ne_refused _ _⟩
  · exact ⟨_, fun _ => rfl, fun _ => raiseClass_ne_refused _ _⟩

theorem exec_setAddress_busy {s : State} (a : Byte) (h : s.phase ≠ .idle) :
    exec (.setAddress a) s = .refused .callDuringInvocation := by
  rw [show exec (.setAddress a) s = execSetAddress a s from rfl, execSetAddress, if_neg h]

theorem exec_configure_busy {s : State} (ic oc : Nat) (ii io : Bool) (h : s.phase ≠ .idle) :
    exec (.configure ic oc ii io) s = .refused .callDuringInvocation := by
  rw [show exec (.configure ic oc ii io) s = execConfigure ic oc ii io s from rfl, execConfigure, if_neg h]

/-- Inside an invocation every call and every frame is refused (R174). -/
theorem exec_called_busy {s : State} {i : Instr} (h : s.phase ≠ .idle) (hi : CalledByApplication i) :
    exec i s = .refused .callDuringInvocation := by
  rcases hi with starts | ⟨a, rfl⟩ | ⟨ic, oc, ii, io, rfl⟩
  · obtain ⟨k, runs, -⟩ := exec_of_startsInvocation starts
    rw [runs, invocation_busy k h]
  · exact exec_setAddress_busy a h
  · exact exec_configure_busy ic oc ii io h

/-- What the engine does on its own turn is never refused. -/
theorem exec_engine_ne_refused {i : Instr} (hi : ¬ CalledByApplication i) (s : State) (r : Refusal) :
    exec i s ≠ .refused r := by
  cases i with
  | stx => exact nofun
  | etx => exact terminate_ne_refused s r
  | dle => exact nofun
  | syn =>
    by_cases hd : s.inData = true
    · rw [exec_syn_of_data hd]
      exact append_ne_refused _ _ r
    · rw [exec_syn_of_noData (by simpa using hd)]
      exact nofun
  | data b => exact append_ne_refused b _ r
  | addrMatch b => exact nofun
  | addrForeign b => exact raiseClass_ne_refused _ s r
  | typeI => exact nofun
  | typeP => exact nofun
  | typeR => exact nofun
  | typeT => exact nofun
  | typeBad b => exact raiseClass_ne_refused _ s r
  | escLit b => exact append_ne_refused b _ r
  | flEnd => exact nofun
  | flSkip b => exact nofun
  | flEmpty => exact nofun
  | tx =>
    rw [show exec .tx s = execTx s from rfl, execTx]
    split <;> exact nofun
  | invoke => exact absurd (.inl (.inl rfl)) hi
  | setAddress a => exact absurd (.inr (.inl ⟨a, rfl⟩)) hi
  | configure ic oc ii io => exact absurd (.inr (.inr ⟨ic, oc, ii, io, rfl⟩)) hi
  | frameI a p => exact absurd (.inl (.inr (.inl ⟨a, p, .inl rfl⟩))) hi
  | frameP a p => exact absurd (.inl (.inr (.inl ⟨a, p, .inr (.inl rfl)⟩))) hi
  | frameR a p => exact absurd (.inl (.inr (.inl ⟨a, p, .inr (.inr (.inl rfl))⟩))) hi
  | frameT a p => exact absurd (.inl (.inr (.inl ⟨a, p, .inr (.inr (.inr rfl))⟩))) hi
  | frameBadtype a t => exact absurd (.inl (.inr (.inr (.inl ⟨a, t, rfl⟩)))) hi
  | frameForeign a => exact absurd (.inl (.inr (.inr (.inr ⟨a, rfl⟩)))) hi

/-- Every refusal is one the spec names. -/
theorem exec_refused {s : State} {i : Instr} {r : Refusal} (h : exec i s = .refused r) :
    (s.phase ≠ .idle ∧ CalledByApplication i) ∨
    (s.phase = .idle ∧ (s.addressWritten = false ∨ s.countsWritten = false) ∧ StartsInvocation i) ∨
    (s.phase = .idle ∧ ∃ ic oc ii io, i = .configure ic oc ii io ∧ (s.cfg.ioCap < ic ∨ s.cfg.ioCap < oc)) := by
  by_cases called : CalledByApplication i
  · by_cases idle : s.phase = .idle
    · rcases called with starts | ⟨a, rfl⟩ | ⟨ic, oc, ii, io, rfl⟩
      · obtain ⟨k, runs, never⟩ := exec_of_startsInvocation starts
        rw [runs] at h
        rcases invocation_refused (never s r) h with busy | ⟨-, unwritten⟩
        · exact absurd idle busy
        · exact .inr (.inl ⟨idle, unwritten, starts⟩)
      · rw [exec_setAddress_of_idle a idle] at h
        cases h
      · by_cases fits : ic ≤ s.cfg.ioCap ∧ oc ≤ s.cfg.ioCap
        · rw [exec_configure_of_fits ii io idle fits] at h
          cases h
        · exact .inr (.inr ⟨idle, ic, oc, ii, io, rfl, by omega⟩)
    · exact .inl ⟨idle, called⟩
  · exact absurd h (exec_engine_ne_refused called s r)

/-- An allowed call completes. -/
theorem exec_allowed_call {s : State} {c : Call} (h : callAllowed s c = true) : ∃ t, exec (decodeCall c) s = .next t := by
  cases c with
  | invoke =>
    simp only [callAllowed, Bool.and_eq_true, decide_eq_true_eq] at h
    obtain ⟨⟨idle, addressed⟩, counted⟩ := h
    by_cases hr : s.rxq = []
    · exact ⟨_, exec_invoke_empty idle addressed counted hr⟩
    · exact ⟨_, exec_invoke_received idle addressed counted hr⟩
  | setAddress a => exact ⟨_, exec_setAddress_of_idle a (by simpa [callAllowed] using h)⟩
  | configure ic oc ii io =>
    simp only [callAllowed, Bool.and_eq_true, decide_eq_true_eq] at h
    obtain ⟨⟨idle, ic_fits⟩, oc_fits⟩ := h
    exact ⟨_, exec_configure_of_fits ii io idle ⟨ic_fits, oc_fits⟩⟩

/-- Settles O34: the three refusals, the converse, and the calls that complete. -/
theorem callsAreRefusedExactlyWhereTheSpecSaysSo : Obligations.CallsAreRefusedExactlyWhereTheSpecSaysSo := by
  refine fun s => ⟨fun _ => exec_called_busy, fun i idle unwritten starts => ?unconfigured,
    fun ic oc ii io idle => exec_configure_too_large ii io idle, fun _ _ => exec_refused, fun _ => exec_allowed_call⟩
  case unconfigured =>
    obtain ⟨k, runs, -⟩ := exec_of_startsInvocation starts
    rw [runs, invocation_unconfigured k idle unwritten]

/-! ## A whole frame as one instruction (R86; log 12) -/

/-- The state in which the end marker finds the parser after the payload `p` of a frame of class `c` (R86, R107). -/
def payloadRead (c : Classification) (p : List Byte) (s : State) : State :=
  { s with msg := msgStore s.msg 0 p, idx := p.length, inData := true, cls := c, phase := .rdByte }

theorem parseFrame_eq_exec_etx {c : Classification} {p : List Byte} {s : State} (fits : p.length ≤ s.cfg.msgCap) :
    parseFrame c p s = exec .etx (payloadRead c p s) :=
  parseFrame_fits fits

/-- Terminate after a payload stored from cell 0 on leaves the payload and its sentinel. -/
theorem holds_of_terminated {m : Memory} {p : List Byte} {u t : State} (hm : u.msg = msgStore m 0 p)
    (hi : u.idx = p.length) (h : Terminated u t) : Holds p t := by
  obtain ⟨sentinel, below, above⟩ := h
  rw [hi] at sentinel below above
  intro i
  rcases Nat.lt_trichotomy i p.length with lt | rfl | gt
  · rw [below i lt, hm, find_msgStore_zero_of_lt m lt, List.getElem?_append_left lt]
  · simp [sentinel]
  · rw [above i gt, List.getElem?_eq_none (by simp; omega)]

/-- A cell of a payload followed by its sentinel is a payload byte or the sentinel. -/
theorem getElem?_payload_sentinel {p : List Byte} {i : Nat} {b : Byte} (h : (p ++ [0#8])[i]? = some b) :
    i < p.length ∧ p[i]? = some b ∨ i = p.length ∧ b = 0#8 := by
  rcases Nat.lt_trichotomy i p.length with lt | rfl | gt
  · rw [List.getElem?_append_left lt] at h
    exact .inl ⟨lt, h⟩
  · have : 0#8 = b := by simpa using h
    exact .inr ⟨rfl, this.symm⟩
  · rw [List.getElem?_eq_none (by simp; omega)] at h
    cases h

/-- Settles O35: the end marker over the payload read (O21), its cells those of the stored payload. -/
theorem initializationFrameSetsTheDelay : Obligations.InitializationFrameSetsTheDelay := by
  intro s a p hc idle addressed counted fits
  obtain ⟨t, hi, lo, runs, ht, terminated, hi_payload, hi_sentinel, lo_payload, lo_sentinel⟩ :=
    initializationSetsTheDelay (payloadRead .init p s) hc rfl fits
  have runs : exec (.frameI a p) s = .next t :=
    (invocation_runs _ idle addressed counted).trans ((parseFrame_eq_exec_etx fits).trans runs)
  have payload : ∀ i b, i < p.length → p[i]? = some b → (msgStore s.msg 0 p).find i = some b :=
    fun i b lt found => (find_msgStore_zero_of_lt s.msg lt).trans found
  have holds : Holds p t := holds_of_terminated rfl rfl terminated
  obtain ⟨m, d, rfl⟩ : ∃ m d, t = { payloadRead .init p s with
      phase := .idle, msg := m, draws := d, txDelay := (hi.toNat * 256 + lo.toNat) * 10 } := ⟨_, _, ht⟩
  refine ⟨_, hi, lo, runs, rfl, holds, rfl, ⟨rfl, rfl, rfl, rfl, rfl⟩, ⟨rfl, rfl⟩, rfl, fun b found => ?high,
    fun b found => ?low⟩
  case high =>
    rcases getElem?_payload_sentinel found with ⟨lt, found⟩ | ⟨here, rfl⟩
    · exact hi_payload b lt (payload _ b lt found)
    · exact hi_sentinel here
  case low =>
    rcases getElem?_payload_sentinel found with ⟨lt, found⟩ | ⟨here, rfl⟩
    · exact lo_payload b lt (payload _ b lt found)
    · exact lo_sentinel here

/-- Settles O36: the end marker over the payload read (O22); behind the response `msg` still holds the payload. -/
theorem pollFrameIsAnsweredWithTheSampledInputs : Obligations.PollFrameIsAnsweredWithTheSampledInputs := by
  intro s a p hc idle addressed counted fits hn
  obtain ⟨t, smp, runs, sampled, ht, placed, above, -, -, cleared, kept⟩ :=
    pollBuildsTheEscapedResponse (payloadRead .poll p s) hc rfl fits hn
  have runs : exec (.frameP a p) s = .next t :=
    (invocation_runs _ idle addressed counted).trans ((parseFrame_eq_exec_etx fits).trans runs)
  have behind : ∀ i, t.txLen ≤ i → t.msg.find i = (p ++ [0#8])[i]? := fun i hi => by
    rw [above i hi, ← find_storeSentinel (payloadRead .poll p s) i]
    exact find_storeSentinel_payload s.msg p rfl rfl i
  obtain ⟨m, b, d, rfl⟩ : ∃ m b d, t = { payloadRead .poll p s with
      phase := .tx, msg := m, inputBits := b, txPos := 0
      txLen := (wireFrame s.cfg s.address 0x52#8 (flipped s.invIn smp)).length
      sampleq := s.sampleq.drop s.inCount, samplelog := s.samplelog ++ [s.inCount], draws := d } := ⟨_, _, _, ht⟩
  exact ⟨_, smp, runs, sampled, rfl, rfl, rfl, ⟨rfl, rfl⟩, rfl, rfl, rfl, rfl, placed, behind, cleared, kept⟩

/-- Settles O38: the end marker over the payload read (O23). -/
theorem transmitFrameAppliesItsFirstBytes : Obligations.TransmitFrameAppliesItsFirstBytes := by
  intro s a p hc idle addressed counted fits hn
  obtain ⟨t, src, runs, length, ht, terminated, payload, sentinel, stored, kept⟩ :=
    transmitCopiesAndAppliesTheOutputs (payloadRead .transmit p s) hc rfl fits hn
  have runs : exec (.frameT a p) s = .next t :=
    (invocation_runs _ idle addressed counted).trans ((parseFrame_eq_exec_etx fits).trans runs)
  have holds : Holds p t := holds_of_terminated rfl rfl terminated
  obtain ⟨m, d, o, rfl⟩ : ∃ m d o, t = { payloadRead .transmit p s with
      phase := .idle, msg := m, draws := d, outputBits := o
      applylog := s.applylog ++ [flipped s.invOut src] } := ⟨_, _, _, ht⟩
  refine ⟨_, src, runs, length, rfl, holds, rfl, ⟨rfl, rfl, rfl, rfl, rfl⟩, rfl, rfl, fun i b hi found => ?source, stored,
    kept⟩
  rcases getElem?_payload_sentinel found with ⟨lt, found⟩ | ⟨rfl, rfl⟩
  · exact payload i b hi lt ((find_msgStore_zero_of_lt s.msg lt).trans found)
  · exact sentinel hi

/-- The parse of a frame that ends in its header leaves an empty payload. -/
theorem holds_nil_of_sentinel (m : Memory) {t : State} (h : t.msg = (Memory.write none m 0 0#8).forgetAbove 0) :
    Holds [] t := by
  intro i
  rw [h, Memory.find_forgetAbove, Memory.find_write]
  cases i <;> simp

/-- Settles O37: the flush entered after a whole payload (R136), or at the header (R137, R138). -/
theorem rejectedFramesTouchNoSessionState : Obligations.RejectedFramesTouchNoSessionState := by
  intro s a idle addressed counted
  refine ⟨fun p fits => ?frameR, fun ty => ?badType, ?foreign⟩
  case frameR =>
    obtain ⟨t, runs, ht, terminated⟩ := rejectedParsesEnterTheFlush (payloadRead .read p s) (.inl rfl) fits
    have runs : exec (.frameR a p) s = .next t :=
      (invocation_runs _ idle addressed counted).trans ((parseFrame_eq_exec_etx fits).trans runs)
    have holds : Holds p t := holds_of_terminated rfl rfl terminated
    obtain ⟨m, rfl⟩ : ∃ m, t = { payloadRead .read p s with phase := .flush, msg := m } := ⟨_, ht⟩
    exact ⟨_, runs, rfl, holds, rfl, ⟨rfl, rfl, rfl, rfl, rfl⟩, ⟨rfl, rfl⟩, rfl, rfl⟩
  case badType =>
    have runs := (invocation_runs (parseHeader .error) idle addressed counted).trans
      (parseHeader_flushes (.inr (.inl rfl)) s)
    exact ⟨_, runs, rfl, holds_nil_of_sentinel s.msg rfl, rfl, ⟨rfl, rfl, rfl, rfl, rfl⟩, ⟨rfl, rfl⟩, rfl, rfl⟩
  case foreign =>
    have runs := (invocation_runs (parseHeader .ignore) idle addressed counted).trans
      (parseHeader_flushes (.inr (.inr rfl)) s)
    exact ⟨_, runs, rfl, holds_nil_of_sentinel s.msg rfl, rfl, ⟨rfl, rfl, rfl, rfl, rfl⟩, ⟨rfl, rfl⟩, rfl, rfl⟩

/-- A frame of this node with too long a payload is an error, whatever its class (R112). -/
theorem invocation_parseFrame_overlong (c : Classification) {p : List Byte} {s : State} (h1 : s.phase = .idle)
    (h2 : s.addressWritten = true) (h3 : s.countsWritten = true) (long : s.cfg.msgCap < p.length) :
    ∃ t, invocation s (parseFrame c p) = .next t ∧ ParsedInto .flush .error s.cfg.msgCap s t ∧ Holds (p.take s.cfg.msgCap) t ∧
      t.txDelay = s.txDelay ∧ SamePoll s t ∧ SameOutputs s t ∧
      t.rxq = wirePayload s.cfg (p.drop (s.cfg.msgCap + 1)) ++ s.cfg.etx :: s.rxq := by
  have kept : s.cfg.msgCap = (p.take s.cfg.msgCap).length := by rw [List.length_take_of_le (Nat.le_of_lt long)]
  have runs := (invocation_runs (parseFrame c p) h1 h2 h3).trans (parseFrame_overruns long)
  refine ⟨_, runs, rfl, fun i => ?holds, rfl, ⟨rfl, rfl, rfl, rfl, rfl⟩, ⟨rfl, rfl⟩, ?rest⟩
  case holds =>
    exact find_storeSentinel_payload (s := { s with
      msg := msgStore s.msg 0 (p.take s.cfg.msgCap), idx := s.cfg.msgCap }) s.msg (p.take s.cfg.msgCap) rfl kept i
  case rest => simp [wirePayload_eq_escape]

end Sys2Proof
end

section
/-! A step and a run of steps (spec/00_scope.md R12, R14): what the engine's turn and every other move run, and the runs over many
steps of one phase: a hold (R114), the flush (R139), the sending of a response (R156). -/

namespace Sys2Proof

open Sys2Proof.Machine

/-! ## The engine's turn (R85, R103) -/

theorem not_decode_idle {e : Env} {b : Byte} {i : Instr} : decode e (.byte .idle b) ≠ .ok i := nofun

theorem not_decode_tx {e : Env} {b : Byte} {i : Instr} : decode e (.byte .tx b) ≠ .ok i := nofun

theorem engineFetch_reads {s : State} {b : Byte} {r : List Byte} {i : Instr} (hr : s.rxq = b :: r)
    (hd : decode s.env (.byte s.phase b) = .ok i) : engineFetch s = .run i { s with rxq := r } := by
  rcases engineFetch_cases s with
    ⟨idle, -⟩ | ⟨-, empty, -⟩ | ⟨-, -, b', r', i', hr', hd', runs⟩ | ⟨-, empty, -⟩ | ⟨sending, -⟩
  · exact absurd (idle ▸ hd) not_decode_idle
  · cases hr.symm.trans empty
  · cases hr.symm.trans hr'
    cases hd.symm.trans hd'
    exact runs
  · cases hr.symm.trans empty
  · exact absurd (sending ▸ hd) not_decode_tx

theorem engineFetch_flushEmpty {s : State} (hp : s.phase = .flush) (hr : s.rxq = []) :
    engineFetch s = .run .flEmpty s := by
  simp only [engineFetch, hp, fetchFlush]
  rw [if_pos (rxAvail_eq_zero.2 hr)]
  rfl

theorem engineFetch_sends {s : State} (hp : s.phase = .tx) : engineFetch s = .run .tx s := by
  simp only [engineFetch, hp]
  rfl

theorem engineFetch_waits {s : State} (hp : s.phase = .idle) : engineFetch s = .silent s := by
  simp only [engineFetch, hp]

theorem engineFetch_holds {s : State} (h : Holding s) : engineFetch s = .silent s := by
  obtain ⟨reading, empty⟩ := h
  rcases reading with hp | hp | hp | hp <;> simp only [engineFetch, hp, fetchByte, rxRead_nil empty]

theorem fetch_engineTurn {s u : State} (hc : s.cfg.Admissible) (h : EngineTurn s u) : fetch s = engineFetch u := by
  rcases h with ⟨nothing, rfl⟩ | ⟨rest, first, rfl⟩
  · exact fetch_engine hc nothing
  · exact fetch_move hc first

/-- The move taken changes nothing that a fetch looks at. -/
theorem engineTurn_eq {s u : State} (h : EngineTurn s u) : u = { s with agenda := u.agenda } := by
  rcases h with ⟨-, rfl⟩ | ⟨rest, -, rfl⟩ <;> rfl

/-- Settles O8: the fetch of the engine's turn, phase by phase. -/
theorem stepRunsTheDecodedInstruction : Obligations.StepRunsTheDecodedInstruction := by
  intro s u hc turn
  have fetched := fetch_engineTurn hc turn
  obtain ⟨a, rfl⟩ : ∃ a, u = { s with agenda := a } := ⟨_, engineTurn_eq turn⟩
  refine ⟨fun b r i hr hd => ?byte, fun hp hr => ?flushEmpty, fun hp => ?sends, fun hp => ?waits, fun hp hr => ?holds⟩
  case byte => exact step_of_run (fetched.trans (engineFetch_reads (s := { s with agenda := a }) hr hd))
  case flushEmpty => exact step_of_run (fetched.trans (engineFetch_flushEmpty hp hr))
  case sends => exact step_of_run (fetched.trans (engineFetch_sends hp))
  case waits => exact step_of_silent (fetched.trans (engineFetch_waits hp))
  case holds => exact step_of_silent (fetched.trans (engineFetch_holds ⟨hp, hr⟩))

/-! ## The moves of the other agents -/

theorem step_call {s : State} {c : Call} {rest : List Move} (hc : s.cfg.Admissible) (ha : s.agenda = .call c :: rest) :
    step s = exec (decodeCall c) { s with agenda := rest } :=
  step_of_run (fetch_move hc ha)

theorem fetchFrame_of_frame {s : State} {i : Instr} {r : List Byte} (h : decodeFrame s.env s.rxq = .ok (i, r)) :
    fetchFrame s = .run i { s with rxq := r } := by
  rcases fetchFrame_cases s with ⟨i', r', h', runs⟩ | ⟨⟨x, h'⟩, -⟩
  · cases h.symm.trans h'
    exact runs
  · cases h.symm.trans h'

theorem fetchFrame_of_noFrame {s : State} {x : DecodeError} (h : decodeFrame s.env s.rxq = .error x) :
    fetchFrame s = .run .invoke s := by
  rcases fetchFrame_cases s with ⟨i, r, h', -⟩ | ⟨-, runs⟩
  · cases h.symm.trans h'
  · exact runs

/-- Settles O9: each move fetches its own instruction, a delivery none. -/
theorem stepRunsCallsFramesAndDeliveries : Obligations.StepRunsCallsFramesAndDeliveries := by
  intro s m rest hc ha
  refine ⟨?deliver, ?invoke, ?setAddress, ?configure, ?frame, ?noFrame⟩
  case deliver =>
    rintro b rfl
    exact step_of_silent (fetch_move hc ha)
  case invoke =>
    rintro rfl
    exact step_call hc ha
  case setAddress =>
    rintro a rfl
    exact step_call hc ha
  case configure =>
    rintro ic oc ii io rfl
    exact step_call hc ha
  case frame =>
    rintro i r rfl found
    exact step_of_run ((fetch_move hc ha).trans (fetchFrame_of_frame (s := { s with agenda := rest }) found))
  case noFrame =>
    rintro x rfl none
    exact step_of_run ((fetch_move hc ha).trans (fetchFrame_of_noFrame (s := { s with agenda := rest }) none))

/-- Settles O10: the move is silent and its state is that of `engineReset`. -/
theorem resetAtAnyMomentKeepsTheStreams : Obligations.ResetAtAnyMomentKeepsTheStreams :=
  fun _ _ hc ha => step_of_silent (fetch_move hc ha)

/-- Settles O11: the fetch looks at the parameters first. -/
theorem inadmissibleParametersAreRefused : Obligations.InadmissibleParametersAreRefused := by
  intro s hc
  rw [step, fetch, if_neg hc]

/-- Settles O45: at rest nothing has been received, so `Invoke` only classifies. -/
theorem atRestInvokeChangesNothing : Obligations.AtRestInvokeChangesNothing := by
  rintro s rest hc ⟨idle, empty⟩ addressed counted ha
  exact (step_call hc ha).trans (exec_invoke_empty (s := { s with agenda := rest }) idle addressed counted empty)

/-! ## One engine step of a run with an empty agenda -/

theorem step_reads {s : State} {b : Byte} {r : List Byte} {i : Instr} (hc : s.cfg.Admissible) (ha : s.agenda = [])
    (hr : s.rxq = b :: r) (hd : decode s.env (.byte s.phase b) = .ok i) : step s = exec i { s with rxq := r } :=
  step_of_run ((fetch_engine hc ha).trans (engineFetch_reads hr hd))

theorem steps_one (s : State) : steps 1 s = step s := by
  rw [steps]
  cases step s <;> rfl

/-- A run that ends with one more step ends as that step does. -/
theorem steps_then_step {s u : State} {k : Nat} (h : steps k s = .next u) : steps (k + 1) s = step u := by
  rw [steps_add k 1 h, steps_one]

/-- Settles O44, by induction on the number of steps: each leaves the state as it is. -/
theorem aHoldLastsUntilAByteArrives : Obligations.AHoldLastsUntilAByteArrives := by
  intro s k hc ha holding
  have stays : step s = .next s := step_of_silent ((fetch_engine hc ha).trans (engineFetch_holds holding))
  induction k with
  | zero => rfl
  | succ k ih => rw [steps_succ_of_next k stays, ih]

/-! ## The flush over a run (R139) -/

theorem step_flush_skips {s : State} {b : Byte} {r : List Byte} (hc : s.cfg.Admissible) (ha : s.agenda = [])
    (hp : s.phase = .flush) (hr : s.rxq = b :: r) (hb : b ≠ s.cfg.etx) : step s = .next { s with rxq := r } := by
  have decoded : decode s.env (.byte s.phase b) = .ok (.flSkip b) := by
    rw [hp, decode_flush]
    exact congrArg Except.ok (decodeFlush_skip hb)
  rw [step_reads hc ha hr decoded, exec_flSkip]
  exact congrArg Host.Outcome.next (withPhase_self (s := { s with rxq := r }) hp)

theorem step_flush_ends {s : State} {r : List Byte} (hc : s.cfg.Admissible) (ha : s.agenda = [])
    (hp : s.phase = .flush) (hr : s.rxq = s.cfg.etx :: r) : step s = .next { s with phase := .idle, rxq := r } := by
  have decoded : decode s.env (.byte s.phase s.cfg.etx) = .ok .flEnd := by
    rw [hp, decode_flush]
    exact congrArg Except.ok (decodeFlush_etx s.cfg)
  rw [step_reads hc ha hr decoded, exec_flEnd]

theorem step_flush_empty {s : State} (hc : s.cfg.Admissible) (ha : s.agenda = []) (hp : s.phase = .flush)
    (hr : s.rxq = []) : step s = .next { s with phase := .idle } :=
  step_of_run ((fetch_engine hc ha).trans (engineFetch_flushEmpty hp hr))

/-- Bytes that are no end marker are discarded one by one. -/
theorem steps_flush_skips {s : State} {junk tail : List Byte} (hc : s.cfg.Admissible) (ha : s.agenda = [])
    (hp : s.phase = .flush) (hr : s.rxq = junk ++ tail) (hj : s.cfg.etx ∉ junk) :
    steps junk.length s = .next { s with rxq := tail } := by
  induction junk generalizing s with
  | nil =>
    obtain rfl : s.rxq = tail := hr
    rfl
  | cons b r ih =>
    rw [List.mem_cons, not_or] at hj
    obtain ⟨b_ne_etx, hj⟩ := hj
    rw [List.length_cons, steps_succ_of_next _ (step_flush_skips hc ha hp hr (Ne.symm b_ne_etx))]
    exact ih (s := { s with rxq := r ++ tail }) hc ha hp rfl hj

/-- Settles O26: the skipped bytes, and then the end marker. -/
theorem flushDiscardsThroughTheNextEndMarker : Obligations.FlushDiscardsThroughTheNextEndMarker := by
  intro s junk rest hc ha hp hr hj
  rw [steps_then_step (steps_flush_skips hc ha hp hr hj)]
  exact step_flush_ends (s := { s with rxq := s.cfg.etx :: rest }) hc ha hp rfl

/-- Settles O27: the skipped bytes, and then none. -/
theorem flushWithoutAnEndMarkerEmptiesTheQueue : Obligations.FlushWithoutAnEndMarkerEmptiesTheQueue := by
  intro s hc ha hp hj
  rw [steps_then_step (steps_flush_skips hc ha hp (List.append_nil s.rxq).symm hj)]
  exact step_flush_empty (s := { s with rxq := [] }) hc ha hp rfl

/-! ## Sending a response (R156, R157) -/

/-- The send step inside the buffer: write, advance, pace, and after the last byte the end of the invocation. -/
theorem exec_tx_of_le {s : State} (hpos : s.txPos ≤ s.cfg.msgCap) :
    exec .tx s = .next { s with
      phase := if s.txPos + 1 = s.txLen then .idle else .tx
      txPos := s.txPos + 1
      txlog := s.txlog ++ (if s.txDelay = 0 then [.tx (msgByte s s.txPos)] else [.tx (msgByte s s.txPos), .pace s.txDelay])
      rxq := if s.cfg.rxSeesOwnTx then s.rxq ++ [msgByte s s.txPos] else s.rxq } := by
  rw [show exec .tx s = execTx s from rfl, execTx, if_pos hpos]
  by_cases last : s.txPos + 1 = s.txLen <;> by_cases undelayed : s.txDelay = 0 <;>
    simp [advanceTx, pace, txWrite, last, undelayed]

theorem exec_tx_of_gt {s : State} (hpos : s.cfg.msgCap < s.txPos) :
    exec .tx s = .fault (.outOfBounds .message s.txPos) := by
  rw [show exec .tx s = execTx s from rfl, execTx, if_neg (Nat.not_le_of_lt hpos)]

/-- Settles O29: the send step, the byte at `txPos` being a listed one. -/
theorem sendStepWritesAndPacesOneByte : Obligations.SendStepWritesAndPacesOneByte := by
  intro s b hpos found
  rw [exec_tx_of_le hpos, msgByte_of_find found]

/-- The state after the bytes `f` have been sent, in phase `p` (R156; the echo: R64). -/
def afterSending (f : List Byte) (p : Phase) (s : State) : State :=
  { s with
    phase := p
    txPos := s.txPos + f.length
    txlog := s.txlog ++ sentEvents s.txDelay f
    rxq := if s.cfg.rxSeesOwnTx then s.rxq ++ f else s.rxq }

/-- Sending a byte and then the rest is sending them all. -/
theorem afterSending_afterSending (b : Byte) (r : List Byte) (p q : Phase) (s : State) :
    afterSending r q (afterSending [b] p s) = afterSending (b :: r) q s := by
  have position : s.txPos + 1 + r.length = s.txPos + (r.length + 1) := by omega
  cases echo : s.cfg.rxSeesOwnTx <;> simp [afterSending, echo, position, sentEvents]

theorem step_sends {s : State} {b : Byte} (hc : s.cfg.Admissible) (ha : s.agenda = []) (hp : s.phase = .tx)
    (hpos : s.txPos ≤ s.cfg.msgCap) (found : s.msg.find s.txPos = some b) :
    step s = .next (afterSending [b] (if s.txPos + 1 = s.txLen then .idle else .tx) s) := by
  rw [step_of_run ((fetch_engine hc ha).trans (engineFetch_sends hp)), sendStepWritesAndPacesOneByte s b hpos found]
  simp [afterSending, sentEvents]

/-- What is left of a response goes out in buffer order, whatever has been sent before. -/
theorem steps_send {s : State} {f : List Byte} (hc : s.cfg.Admissible) (ha : s.agenda = []) (hp : s.phase = .tx)
    (hlen : s.txLen = s.txPos + f.length) (left : f ≠ []) (fits : s.txLen ≤ s.cfg.msgCap + 1)
    (held : ∀ i < f.length, s.msg.find (s.txPos + i) = f[i]?) :
    steps f.length s = .next (afterSending f .idle s) := by
  induction f generalizing s with
  | nil => exact absurd rfl left
  | cons b r ih =>
    rw [List.length_cons] at hlen
    have first : s.msg.find s.txPos = some b := held 0 (Nat.zero_lt_succ _)
    have sent := step_sends hc ha hp (by omega) first
    by_cases more : r = []
    · subst more
      have last : s.txPos + 1 = s.txLen := hlen.symm
      rw [if_pos last] at sent
      exact (steps_one s).trans sent
    · have room : 0 < r.length := List.length_pos_iff.2 more
      rw [if_neg (by omega)] at sent
      rw [List.length_cons, steps_succ_of_next _ sent, ih (s := afterSending [b] .tx s) hc ha rfl ?count more fits ?rest,
        afterSending_afterSending]
      case count =>
        change s.txLen = s.txPos + 1 + r.length
        omega
      case rest =>
        intro i hi
        have next := held (i + 1) (Nat.succ_lt_succ hi)
        rwa [List.getElem?_cons_succ, ← Nat.add_assoc, Nat.add_right_comm] at next

/-- Settles O30: the run of the whole response, from position 0. -/
theorem responseIsSentInBufferOrder : Obligations.ResponseIsSentInBufferOrder := by
  intro s f hc ha hp hpos hlen left fits held
  have run := steps_send hc ha hp (by omega) left (by omega) (by simpa [hpos] using held)
  rwa [afterSending, hpos, Nat.zero_add] at run

end Sys2Proof
end

section
/-! Whole frames read byte by byte (spec/30_encoding.md R72, R86): the header, the escaped payload, the end marker; and with these
runs the frame grain against the byte grain, the response read back, the poll cycle, the overlong and the foreign frame. -/

namespace Sys2Proof

open Sys2Proof.Machine

/-- An idle, configured node whose only move to come is the call of `Invoke` (R101, R175). -/
structure InvokeNext (s : State) : Prop where
  /-- the parameters are those of R8 -/
  admissible : s.cfg.Admissible
  /-- the call is the only move to come -/
  agenda : s.agenda = [.call .invoke]
  /-- no invocation is in progress -/
  idle : s.phase = .idle
  /-- `setAddress` has been called -/
  addressed : s.addressWritten = true
  /-- `configure` has been called -/
  counted : s.countsWritten = true

/-! ## The header (R101 to R106) -/

/-- The state after `Invoke`, the two fillers and the start marker, `r` still to be read. -/
def afterStartMarker (r : List Byte) (s : State) : State :=
  { s with agenda := [], rxq := r, idx := 0, inData := true, cls := s.cfg.clsInitial, phase := .rdAddr }

/-- The state after the header of a frame of class `c` for this node, `r` still to be read. -/
def afterHeader (c : Classification) (r : List Byte) (s : State) : State :=
  { s with agenda := [], rxq := r, idx := 0, inData := true, cls := c, phase := .rdByte }

/-- The type letter `ty` selects the class `c` (R106). -/
def Selects (ty : Byte) (c : Classification) : Prop :=
  ∀ u : State, exec (decodeRdType ty) u = .next { u with cls := c, phase := .rdByte }

theorem selects_letterI : Selects Config.letterI .init := fun _ => rfl

theorem selects_letterP : Selects Config.letterP .poll := fun _ => rfl

theorem selects_letterR : Selects Config.letterR .read := fun _ => rfl

theorem selects_letterT : Selects Config.letterT .transmit := fun _ => rfl

theorem step_invoke {s : State} (h : InvokeNext s) (hr : s.rxq ≠ []) :
    step s = .next (loopEntry { s with agenda := [] }) :=
  (step_call h.admissible h.agenda).trans
    (exec_invoke_received (s := { s with agenda := [] }) h.idle h.addressed h.counted hr)

/-- A byte that the read loop reads. -/
theorem step_rdByte {s : State} {b : Byte} {r : List Byte} (hc : s.cfg.Admissible) (ha : s.agenda = [])
    (hp : s.phase = .rdByte) (hr : s.rxq = b :: r) : step s = exec (decodeRdByte s.cfg b) { s with rxq := r } :=
  step_reads hc ha hr (by rw [hp, decode_rdByte, State.env_cfg])

/-- A filler before the start marker is dropped (R110). -/
theorem step_filler {s : State} {r : List Byte} (hc : s.cfg.Admissible) (ha : s.agenda = []) (hp : s.phase = .rdByte)
    (hd : s.inData = false) (hr : s.rxq = s.cfg.syn :: r) : step s = .next { s with rxq := r } := by
  rw [step_rdByte hc ha hp hr, decodeRdByte_syn hc, exec_syn_of_noData (s := { s with rxq := r }) hd]
  exact congrArg Host.Outcome.next (withPhase_self (s := { s with rxq := r }) hp)

theorem steps_preamble {s : State} {r : List Byte} (h : InvokeNext s)
    (hr : s.rxq = s.cfg.syn :: s.cfg.syn :: Config.stx :: r) : steps 4 s = .next (afterStartMarker r s) := by
  have invoked := step_invoke h (by simp [hr])
  have filler := step_filler (s := loopEntry { s with agenda := [] }) h.admissible rfl rfl rfl hr
  have filler_again := step_filler (s := { loopEntry { s with agenda := [] } with
    rxq := s.cfg.syn :: Config.stx :: r }) h.admissible rfl rfl rfl rfl
  have start := step_rdByte (s := { loopEntry { s with agenda := [] } with rxq := Config.stx :: r }) h.admissible rfl
    rfl rfl
  rw [decodeRdByte_stx, exec_stx] at start
  rw [steps_succ_of_next _ invoked, steps_succ_of_next _ filler, steps_succ_of_next _ filler_again, steps_one, start]
  rfl

/-- The address byte of this node is taken and not kept (R105). -/
theorem steps_ownAddress {s : State} {r : List Byte} (h : InvokeNext s)
    (hr : s.rxq = s.cfg.syn :: s.cfg.syn :: Config.stx :: addrByte s.address :: r) :
    steps 5 s = .next { afterStartMarker r s with phase := .rdType } := by
  rw [steps_then_step (steps_preamble h hr)]
  exact step_reads (s := afterStartMarker (addrByte s.address :: r) s) h.admissible rfl rfl (decode_rdAddr_of_eq rfl)

theorem steps_foreignAddress {s : State} {a : Byte} {r : List Byte} (h : InvokeNext s) (ha : a ≠ addrByte s.address)
    (hr : s.rxq = s.cfg.syn :: s.cfg.syn :: Config.stx :: a :: r) :
    steps 5 s = raiseClass .ignore (afterStartMarker r s) := by
  rw [steps_then_step (steps_preamble h hr)]
  exact step_reads (s := afterStartMarker (a :: r) s) h.admissible rfl rfl (decode_rdAddr_of_ne ha)

/-- The type byte is decoded in RD_TYPE, whatever it is. -/
theorem steps_type {s : State} {ty : Byte} {r : List Byte} (h : InvokeNext s)
    (hr : s.rxq = frameHeader s.cfg (addrByte s.address) ty ++ r) :
    steps 6 s = exec (decodeRdType ty) { afterStartMarker r s with phase := .rdType } := by
  rw [steps_then_step (steps_ownAddress h hr)]
  exact step_reads (s := { afterStartMarker (ty :: r) s with phase := .rdType }) h.admissible rfl rfl rfl

theorem steps_header {s : State} {ty : Byte} {c : Classification} {r : List Byte} (h : InvokeNext s)
    (hty : Selects ty c) (hr : s.rxq = frameHeader s.cfg (addrByte s.address) ty ++ r) :
    steps 6 s = .next (afterHeader c r s) :=
  (steps_type h hr).trans (hty _)

/-! ## The payload (R108 to R112) -/

theorem escape_append (c : Config) (p q : List Byte) : escape c (p ++ q) = escape c p ++ escape c q := by
  simp only [escape_eq_flatMap, List.flatMap_append]

/-- A plain byte that the read loop reads in data mode is appended, a filler too (R110, R111). -/
theorem step_plain {s : State} {v : Byte} {r : List Byte} (hc : s.cfg.Admissible) (ha : s.agenda = [])
    (hp : s.phase = .rdByte) (hd : s.inData = true) (hv : needsEscape s.cfg v = false) (hr : s.rxq = v :: r) :
    step s = append v { s with rxq := r } := by
  have not_marker : ¬ (v = Config.stx ∨ v = s.cfg.etx ∨ v = Config.dle) := by simp [← needsEscape_iff, hv]
  simp only [not_or] at not_marker
  obtain ⟨not_stx, not_etx, not_dle⟩ := not_marker
  have loop : { s with rxq := r, phase := .rdByte } = { s with rxq := r } := withPhase_self (s := { s with rxq := r }) hp
  rw [step_rdByte hc ha hp hr]
  by_cases filler : v = s.cfg.syn
  · rw [filler, decodeRdByte_syn hc, exec_syn_of_data (s := { s with rxq := r }) hd]
    exact congrArg (append s.cfg.syn) loop
  · rw [decodeRdByte_data not_stx not_etx not_dle filler, exec_data]
    exact congrArg (append v) loop

/-- The bytes that stand for one payload byte on the wire end in its Append, be it escaped or not. -/
theorem steps_payload_byte {s : State} {v : Byte} {r : List Byte} (hc : s.cfg.Admissible) (ha : s.agenda = [])
    (hp : s.phase = .rdByte) (hd : s.inData = true) (hr : s.rxq = escape s.cfg [v] ++ r) :
    steps (escape s.cfg [v]).length s = append v { s with rxq := r } := by
  obtain ⟨⟨-, etx_ne_dle, -⟩, -⟩ := id hc
  by_cases hv : needsEscape s.cfg v = true
  · rw [escape_cons_of_needsEscape hv] at hr ⊢
    have marker := step_rdByte hc ha hp hr
    rw [decodeRdByte_dle etx_ne_dle, exec_dle] at marker
    rw [escape_nil, List.length_cons, List.length_singleton, steps_succ_of_next _ marker, steps_one]
    refine (step_reads (s := { s with rxq := v :: r, phase := .rdEsc }) hc ha rfl (decode_rdEsc _ v)).trans ?_
    exact congrArg (append v) (withPhase_self (s := { s with rxq := r }) hp)
  · have plain := Bool.eq_false_iff.2 hv
    rw [escape_cons_of_plain plain] at hr ⊢
    exact (steps_one s).trans (step_plain hc ha hp hd plain hr)

/-- The state after the payload bytes `p` have been appended, `r` still to be read. -/
def afterPayload (p r : List Byte) (s : State) : State :=
  { s with rxq := r, msg := msgStore s.msg s.idx p, idx := s.idx + p.length }

theorem afterPayload_afterPayload (v : Byte) (p r q : List Byte) (s : State) :
    afterPayload p r (afterPayload [v] q s) = afterPayload (v :: p) r s := by
  have count : s.idx + 1 + p.length = s.idx + (p.length + 1) := by omega
  simp [afterPayload, count, msgStore, Memory.writeList]

/-- An escaped payload that fits is appended, byte after byte. -/
theorem steps_payload {s : State} {p r : List Byte} (hc : s.cfg.Admissible) (ha : s.agenda = []) (hp : s.phase = .rdByte)
    (hd : s.inData = true) (fits : s.idx + p.length ≤ s.cfg.msgCap) (hr : s.rxq = escape s.cfg p ++ r) :
    steps (escape s.cfg p).length s = .next (afterPayload p r s) := by
  induction p generalizing s with
  | nil =>
    obtain rfl : s.rxq = r := hr
    rfl
  | cons v p ih =>
    rw [List.length_cons] at fits
    have on_wire : escape s.cfg (v :: p) = escape s.cfg [v] ++ escape s.cfg p := escape_append s.cfg [v] p
    rw [on_wire, List.append_assoc] at hr
    have room : s.idx < s.cfg.msgCap := by omega
    have first : steps (escape s.cfg [v]).length s = .next (afterPayload [v] (escape s.cfg p ++ r) s) :=
      (steps_payload_byte hc ha hp hd hr).trans (append_fits room)
    have fits_rest : s.idx + 1 + p.length ≤ s.cfg.msgCap := by omega
    rw [on_wire, List.length_append, steps_add _ _ first, ← afterPayload_afterPayload v p r (escape s.cfg p ++ r)]
    exact ih (s := afterPayload [v] (escape s.cfg p ++ r) s) hc ha hp hd fits_rest rfl

/-! ## A whole frame -/

theorem afterPayload_afterHeader (c : Classification) (p r q : List Byte) (s : State) :
    afterPayload p r (afterHeader c q s) = payloadRead c p { s with agenda := [], rxq := r } := by
  simp [afterPayload, afterHeader, payloadRead]

/-- `Invoke` and the bytes of a frame whose payload fits end in the end marker's step. -/
theorem steps_frame {s : State} {ty : Byte} {c : Classification} {p rest : List Byte} (h : InvokeNext s)
    (hty : Selects ty c) (fits : p.length ≤ s.cfg.msgCap)
    (hr : s.rxq = frameBytes s.cfg (addrByte s.address) ty p ++ rest) :
    steps (1 + (frameBytes s.cfg (addrByte s.address) ty p).length) s =
      exec .etx (payloadRead c p { s with agenda := [], rxq := rest }) := by
  rw [frameBytes, List.append_assoc, List.append_assoc] at hr
  have header := steps_header h hty hr
  have payload : steps (escape s.cfg p).length (afterHeader c (escape s.cfg p ++ ([s.cfg.etx] ++ rest)) s) =
      .next (payloadRead c p { s with agenda := [], rxq := [s.cfg.etx] ++ rest }) := by
    rw [← afterPayload_afterHeader]
    exact steps_payload (s := afterHeader c (escape s.cfg p ++ ([s.cfg.etx] ++ rest)) s) h.admissible rfl rfl rfl
      (by simpa [afterHeader] using fits) rfl
  have before_end := (steps_add 6 (escape s.cfg p).length header).trans payload
  have end_marker := step_rdByte (s := payloadRead c p { s with agenda := [], rxq := [s.cfg.etx] ++ rest })
    h.admissible rfl rfl rfl
  obtain ⟨⟨etx_ne_stx, -⟩, -⟩ := h.admissible
  rw [frameBytes_length, Nat.add_comm, steps_then_step before_end, end_marker]
  exact congrArg (exec · _) (decodeRdByte_etx etx_ne_stx)

/-- A frame row's meaning is the end marker's over the payload read. -/
theorem invocation_parseFrame {c : Classification} {p : List Byte} {s : State} (h1 : s.phase = .idle)
    (h2 : s.addressWritten = true) (h3 : s.countsWritten = true) (fits : p.length ≤ s.cfg.msgCap) :
    invocation s (parseFrame c p) = exec .etx (payloadRead c p s) :=
  (invocation_runs _ h1 h2 h3).trans (parseFrame_eq_exec_etx fits)

/-- The grains agree on a frame with a payload. -/
theorem grains_agree_payload {s : State} {ty a : Byte} {c : Classification} {p bs rest : List Byte} (h : InvokeNext s)
    (hty : Selects ty c) (wf : (isAddrByte s.address a && decide (p.length ≤ s.cfg.msgCap)) = true)
    (hbs : Code.frame (frameBytes s.cfg a ty p) = .frame bs) (hr : s.rxq = bs ++ rest) :
    steps (1 + bs.length) s = invocation { s with agenda := [], rxq := rest } (parseFrame c p) := by
  obtain ⟨own, fits⟩ := wellFormed_frame (e := s.env) wf
  obtain rfl := (isAddrByte_iff _ _).1 own
  cases hbs
  exact (steps_frame h hty fits hr).trans
    (invocation_parseFrame (s := { s with agenda := [], rxq := rest }) h.idle h.addressed h.counted fits).symm

/-- Settles O40: a frame with a payload is parsed to its end marker; a bad type and a foreign address end the parse in the
header at both grains. -/
theorem frameGrainAgreesWithByteGrain : Obligations.FrameGrainAgreesWithByteGrain := by
  intro s i bs rest hc ha idle addressed counted wf hbs hr
  have h : InvokeNext s := ⟨hc, ha, idle, addressed, counted⟩
  cases i with
  | frameI a p => exact grains_agree_payload h selects_letterI wf hbs hr
  | frameP a p => exact grains_agree_payload h selects_letterP wf hbs hr
  | frameR a p => exact grains_agree_payload h selects_letterR wf hbs hr
  | frameT a p => exact grains_agree_payload h selects_letterT wf hbs hr
  | frameBadtype a t =>
    simp only [wellFormed, Bool.and_eq_true, isAddrByte_iff] at wf
    obtain ⟨rfl, bad⟩ := wf
    cases hbs
    refine (steps_type h hr).trans ?_
    rw [decodeRdType_bad bad, exec_typeBad, raiseClass_flushes (.inr (.inl rfl)) (Nat.zero_le _)]
    exact ((invocation_runs (s := { s with agenda := [], rxq := rest }) (parseHeader .error) idle addressed counted).trans
      (parseHeader_flushes (.inr (.inl rfl)) { s with agenda := [], rxq := rest })).symm
  | frameForeign a =>
    simp only [wellFormed, Bool.not_eq_true', isAddrByte_false_iff] at wf
    cases hbs
    refine (steps_foreignAddress h wf hr).trans ?_
    rw [raiseClass_flushes (.inr (.inr rfl)) (Nat.zero_le _)]
    exact ((invocation_runs (s := { s with agenda := [], rxq := rest }) (parseHeader .ignore) idle addressed counted).trans
      (parseHeader_flushes (.inr (.inr rfl)) { s with agenda := [], rxq := rest })).symm
  | _ => cases hbs

/-! ## The response read back (R158) -/

/-- Settles O41: the run of a frame of type R whose payload fits (R155), and the flush its end marker enters. -/
theorem responseParsesBackToTheInputs : Obligations.ResponseParsesBackToTheInputs := by
  intro s d rest hc ha idle addressed counted hd hr
  have fits : d.length ≤ s.cfg.msgCap := by
    obtain ⟨-, -, room, -⟩ := hc
    omega
  rw [wireFrame_eq_frameBytes] at hr ⊢
  have parsed := steps_frame ⟨hc, ha, idle, addressed, counted⟩ selects_letterR fits hr
  obtain ⟨t, runs, ht, terminated⟩ :=
    rejectedParsesEnterTheFlush (payloadRead .read d { s with agenda := [], rxq := rest }) (.inl rfl) fits
  have held : ∀ i < d.length, t.msg.find i = d[i]? := fun i hi => by
    rw [holds_of_terminated (p := d) rfl rfl terminated i, List.getElem?_append_left hi]
  obtain ⟨m, rfl⟩ : ∃ m, t = { payloadRead .read d { s with agenda := [], rxq := rest } with phase := .flush, msg := m } :=
    ⟨_, ht⟩
  exact ⟨_, parsed.trans runs, rfl, rfl, held, rfl, rfl⟩

/-! ## The poll cycle (R134, R156) -/

/-- Settles O42: the run of the Poll frame, the response built at its end marker (O22), and the run that sends it (O30). -/
theorem pollCycleReportsTheSampledInputs : Obligations.PollCycleReportsTheSampledInputs := by
  intro s rest hc no_echo ha idle addressed counted hn hr
  rw [wireFrame_eq_frameBytes] at hr
  have parsed := steps_frame (p := []) ⟨hc, ha, idle, addressed, counted⟩ selects_letterP (Nat.zero_le _) hr
  obtain ⟨t, smp, runs, sampled, ht, placed, -, at_least, at_most, cleared, -⟩ :=
    pollBuildsTheEscapedResponse (payloadRead .poll [] { s with agenda := [], rxq := rest }) hc rfl (Nat.zero_le _) hn
  have built := parsed.trans runs
  generalize response : wireFrame s.cfg s.address 0x52#8 (flipped s.invIn smp) = f
  obtain ⟨m, b, d, rfl⟩ : ∃ m b d, t = { payloadRead .poll [] { s with agenda := [], rxq := rest } with
      phase := .tx, msg := m, inputBits := b, txPos := 0, txLen := f.length, sampleq := s.sampleq.drop s.inCount
      samplelog := s.samplelog ++ [s.inCount], draws := d } := ⟨_, _, _, response ▸ ht⟩
  have placed : ∀ i < f.length, m.find i = f[i]? := response ▸ placed
  have at_least : 6 ≤ f.length := at_least
  have at_most : f.length ≤ 6 + 2 * s.inCount := at_most
  have fits : f.length ≤ s.cfg.msgCap + 1 := by
    obtain ⟨-, -, room, -⟩ := hc
    omega
  have f_ne_nil : f ≠ [] := List.length_pos_iff.1 (by omega)
  have sent := (steps_add _ f.length built).trans
    (responseIsSentInBufferOrder _ f hc rfl rfl rfl rfl f_ne_nil fits placed)
  refine ⟨_, _, smp, sent, sampled, rfl, ?queue, ?log, cleared, rfl, rfl, ⟨rfl, rfl⟩,
    ⟨rfl, rfl, rfl, rfl, rfl, rfl, rfl⟩⟩
  case queue => exact if_neg (by simp [payloadRead, no_echo])
  case log => exact congrArg (fun g => s.txlog ++ sentEvents s.txDelay g) response.symm

/-! ## The overlong frame (R112) -/

/-- A payload of more than `MSG_CAP` bytes: those that fit, the one that does not, and the rest. -/
theorem overlong_split {n : Nat} {p : List Byte} (long : n < p.length) :
    ∃ v, p.take (n + 1) = p.take n ++ [v] ∧ p = p.take n ++ ([v] ++ p.drop (n + 1)) := by
  refine ⟨p[n], (List.take_concat_get' p n long).symm, ?_⟩
  rw [← List.append_assoc, List.take_concat_get' p n long, List.take_append_drop]

/-- The overlong frame at the byte grain: the payload fills the buffer and the next byte is the overrun. -/
theorem steps_overlong {s : State} {ty : Byte} {c : Classification} {p rest : List Byte} (h : InvokeNext s)
    (hty : Selects ty c) (long : s.cfg.msgCap < p.length)
    (hr : s.rxq = frameBytes s.cfg (addrByte s.address) ty p ++ rest) :
    steps (6 + (escape s.cfg (p.take (s.cfg.msgCap + 1))).length) s =
      .next { storeSentinel (payloadRead c (p.take s.cfg.msgCap) { s with
          agenda := [], rxq := escape s.cfg (p.drop (s.cfg.msgCap + 1)) ++ ([s.cfg.etx] ++ rest) }) with
        cls := .error, phase := .flush } := by
  obtain ⟨v, taken, split⟩ := overlong_split long
  have filled : (p.take s.cfg.msgCap).length = s.cfg.msgCap := List.length_take_of_le (Nat.le_of_lt long)
  generalize behind : escape s.cfg (p.drop (s.cfg.msgCap + 1)) ++ ([s.cfg.etx] ++ rest) = tail
  have on_wire : escape s.cfg p ++ ([s.cfg.etx] ++ rest) =
      escape s.cfg (p.take s.cfg.msgCap) ++ (escape s.cfg [v] ++ tail) := by
    rw [← behind]
    conv_lhs => rw [split]
    simp only [escape_append, List.append_assoc]
  rw [frameBytes, List.append_assoc, List.append_assoc, on_wire] at hr
  have payload : steps (6 + (escape s.cfg (p.take s.cfg.msgCap)).length) s =
      .next (payloadRead c (p.take s.cfg.msgCap) { s with agenda := [], rxq := escape s.cfg [v] ++ tail }) := by
    rw [steps_add 6 _ (steps_header h hty hr), ← afterPayload_afterHeader]
    exact steps_payload (s := afterHeader c (escape s.cfg (p.take s.cfg.msgCap) ++ (escape s.cfg [v] ++ tail)) s)
      h.admissible rfl rfl rfl (by simp [afterHeader, filled]) rfl
  rw [taken, escape_append, List.length_append, ← Nat.add_assoc, steps_add _ _ payload]
  have last := steps_payload_byte (v := v) (r := tail) (s := payloadRead c (p.take s.cfg.msgCap)
    { s with agenda := [], rxq := escape s.cfg [v] ++ tail }) h.admissible rfl rfl rfl rfl
  exact last.trans (append_overruns filled)

/-- Settles O39: the frame rows overrun in one instruction, and byte by byte the overrun is the step of the byte too many. -/
theorem overlongFramesAreErrors : Obligations.OverlongFramesAreErrors := by
  constructor
  · intro s a p i idle addressed counted long row
    have overruns := fun c => invocation_parseFrame_overlong c idle addressed counted long
    rcases row with rfl | rfl | rfl | rfl
    · exact overruns .init
    · exact overruns .poll
    · exact overruns .read
    · exact overruns .transmit
  · intro s ty p rest hc ha idle addressed counted long letter hr
    have selected : ∃ c, Selects ty c := by
      rcases letter with rfl | rfl | rfl | rfl
      · exact ⟨_, selects_letterI⟩
      · exact ⟨_, selects_letterP⟩
      · exact ⟨_, selects_letterR⟩
      · exact ⟨_, selects_letterT⟩
    obtain ⟨c, hty⟩ := selected
    have filled : (p.take s.cfg.msgCap).length = s.cfg.msgCap := List.length_take_of_le (Nat.le_of_lt long)
    rw [wireFrame_eq_frameBytes] at hr
    rw [wirePayload_eq_escape, wirePayload_eq_escape]
    refine ⟨_, steps_overlong ⟨hc, ha, idle, addressed, counted⟩ hty long hr, ?state, ?holds⟩
    case state => simp [storeSentinel, payloadRead, filled]
    case holds => exact holds_of_terminated rfl rfl (terminated_of_msg rfl)

/-! ## The foreign frame (R138) -/

/-- Settles O43: the address byte ends the parse as *ignore*, and the flush discards the rest through its end marker (O26). -/
theorem foreignFrameIsDiscardedUnseen : Obligations.ForeignFrameIsDiscardedUnseen := by
  intro s a body rest hc ha idle addressed counted haddr foreign hbody hr
  have a_ne : a ≠ addrByte s.address := mt (eq_addrByte_iff haddr a).1 foreign
  have rejected := steps_foreignAddress (r := body ++ s.cfg.etx :: rest) ⟨hc, ha, idle, addressed, counted⟩ a_ne
    (by rw [hr]; simp)
  rw [raiseClass_flushes (.inr (.inr rfl)) (Nat.zero_le _)] at rejected
  have discarded := flushDiscardsThroughTheNextEndMarker
    { storeSentinel (afterStartMarker (body ++ s.cfg.etx :: rest) s) with cls := .ignore, phase := .flush } body rest hc
    rfl rfl rfl hbody
  have run := (steps_add 5 (body.length + 1) rejected).trans discarded
  rw [show body.length + 6 = 5 + (body.length + 1) by omega]
  refine ⟨_, run, ?state, holds_nil_of_sentinel s.msg rfl⟩
  case state => simp [storeSentinel, afterStartMarker, idle]

end Sys2Proof
end

section
/-! Everything an instruction and a step can change (spec/10_state.md R34 to R38): one inversion for the instructions, one for the
steps, and the obligations that say which field is written where. -/

namespace Sys2Proof

open Sys2Proof.Machine

/-! ## What an instruction can change -/

/-- What a step of the parser can change: its own registers and what a reaction writes (R130 to R138). -/
inductive ParseEffect (s : State) : State → Prop where
  /-- no response is begun and nothing is applied; an Initialization frame writes the delay (R132) -/
  | parses {p : Phase} {c : Classification} {d : Bool} {n : Nat} {m : Memory} {delay draws : Nat} (not_tx : p ≠ .tx) :
    ParseEffect s { s with phase := p, cls := c, inData := d, idx := n, msg := m, txDelay := delay, draws := draws }
  /-- the reaction to a *poll* -/
  | polls {d : Bool} {n : Nat} {m inputs : Memory} {len pos : Nat} {q : List Byte} {calls : List Nat} {draws : Nat} :
    ParseEffect s { s with
      phase := .tx, cls := .poll, inData := d, idx := n, msg := m, inputBits := inputs, txLen := len, txPos := pos
      sampleq := q, samplelog := calls, draws := draws }
  /-- the reaction to a *transmit* -/
  | applies {d : Bool} {n : Nat} {m outputs : Memory} {draws : Nat} (bs : List Byte) (count : bs.length = s.outCount) :
    ParseEffect s { s with
      phase := .idle, cls := .transmit, inData := d, idx := n, msg := m, outputBits := outputs, draws := draws
      applylog := s.applylog ++ [bs] }

/-- A frame row with a payload. -/
def isPayloadFrame : Instr → Bool
  | .frameI _ _ => true
  | .frameP _ _ => true
  | .frameR _ _ => true
  | .frameT _ _ => true
  | _ => false

theorem startsInvocation_of_payloadFrame {i : Instr} (h : isPayloadFrame i = true) : StartsInvocation i := by
  cases i with
  | frameI a p => exact .inr (.inl ⟨a, p, .inl rfl⟩)
  | frameP a p => exact .inr (.inl ⟨a, p, .inr (.inl rfl)⟩)
  | frameR a p => exact .inr (.inl ⟨a, p, .inr (.inr (.inl rfl))⟩)
  | frameT a p => exact .inr (.inl ⟨a, p, .inr (.inr (.inr rfl))⟩)
  | _ => cases h

/-- What an instruction can change. -/
inductive Effect (s : State) : Instr → State → Prop where
  /-- a step of the parser, of the flush or of a whole parse -/
  | parse {i : Instr} {t : State} (parsed : ParseEffect s t) : Effect s i t
  /-- the overrun of a whole frame leaves its tail in `rxq` (R112, R116) -/
  | overrun {i : Instr} {n : Nat} {m : Memory} {q : List Byte} (row : isPayloadFrame i = true) :
    Effect s i { s with phase := .flush, cls := .error, inData := true, idx := n, msg := m, rxq := q }
  /-- one byte of a response is sent (R156) -/
  | sends {p : Phase} {n : Nat} (b : Byte) (ev : List TxEvent) :
    Effect s .tx { s with
      phase := p, txPos := n, txlog := s.txlog ++ ev, rxq := if s.cfg.rxSeesOwnTx then s.rxq ++ [b] else s.rxq }
  /-- `setAddress` (R170) -/
  | setsAddress (a : Byte) :
    Effect s (.setAddress a) { s with address := clampAddress a, addressWritten := true, returned := some (clampAddress a) }
  /-- `configure` (R171) -/
  | configures (ic oc : Nat) (ii io : Bool) :
    Effect s (.configure ic oc ii io)
      { s with inCount := ic, outCount := oc, invIn := ii, invOut := io, countsWritten := true }

/-- The parser's registers written before a reaction are among those the reaction's effect writes. -/
theorem parseEffect_of_parserWrites {s t : State} (p : Phase) (c : Classification) (d : Bool) (n : Nat) (m : Memory)
    (h : ParseEffect { s with phase := p, cls := c, inData := d, idx := n, msg := m } t) : ParseEffect s t := by
  cases h with
  | parses not_tx => exact .parses not_tx
  | polls => exact .polls
  | applies bs count => exact .applies bs count

/-- Writing the class a state already has changes nothing. -/
theorem classify_self {s : State} {c : Classification} (h : s.cls = c) : classify c s = s := by
  subst h
  rfl

theorem react_effect {s t : State} (h : react s = .next t) : ParseEffect s t := by
  rcases react_next h with ⟨-, rfl⟩ | ⟨-, -, rfl⟩ | ⟨hcls, -, built⟩ | ⟨hcls, -, -, rfl⟩ | ⟨-, rfl⟩
  · exact .parses nofun
  · exact .parses nofun
  · obtain ⟨-, rfl⟩ := build_next built
    rw [← classify_self (s := assemble _ (sampleInputs s)) hcls]
    exact .polls
  · rw [← classify_self (s := { applyOutputs _ (copyOutputs s) with phase := .idle }) hcls]
    exact .applies _ (ioBytes_length _ _)
  · exact .parses nofun

theorem terminate_effect {s t : State} (h : terminate s = .next t) : ParseEffect s t := by
  obtain ⟨-, reacted⟩ := terminate_next h
  exact parseEffect_of_parserWrites s.phase s.cls s.inData s.idx _ (react_effect reacted)

theorem raiseClass_effect {c : Classification} {s t : State} (h : raiseClass c s = .next t) : ParseEffect s t :=
  parseEffect_of_parserWrites s.phase c s.inData s.idx s.msg (terminate_effect h)

theorem append_effect {b : Byte} {s t : State} (h : append b { s with phase := .rdByte } = .next t) : ParseEffect s t := by
  rcases append_next h with ⟨-, rfl⟩ | ⟨-, rfl⟩
  · exact .parses nofun
  · exact .parses nofun

theorem invocation_parseFrame_effect {c : Classification} {p : List Byte} {i : Instr} {s t : State} (row : isPayloadFrame i = true)
    (h : invocation s (parseFrame c p) = .next t) : Effect s i t := by
  obtain ⟨-, -, -, parsed⟩ := invocation_next h
  by_cases fits : p.length ≤ s.cfg.msgCap
  · rw [parseFrame_fits fits] at parsed
    exact .parse (parseEffect_of_parserWrites _ _ _ _ _ (terminate_effect parsed))
  · rw [parseFrame_overruns (Nat.lt_of_not_le fits)] at parsed
    cases parsed
    exact .overrun row

theorem invocation_parseHeader_effect {c : Classification} {s t : State}
    (h : invocation s (parseHeader c) = .next t) : ParseEffect s t := by
  obtain ⟨-, -, -, parsed⟩ := invocation_next h
  exact parseEffect_of_parserWrites .rdByte s.cfg.clsInitial true 0 s.msg (raiseClass_effect parsed)

theorem exec_invoke_effect {s t : State} (h : exec .invoke s = .next t) : ParseEffect s t := by
  have started : execInvoke s = .next t := h
  obtain ⟨idle, addressed, counted, -⟩ := invocation_next started
  by_cases hr : s.rxq = []
  · rw [exec_invoke_empty idle addressed counted hr] at h
    cases h
    exact .parses (p := s.phase) (by simp [idle])
  · rw [exec_invoke_received idle addressed counted hr] at h
    cases h
    exact .parses nofun

theorem exec_tx_effect {s t : State} (h : exec .tx s = .next t) : Effect s .tx t := by
  by_cases hpos : s.txPos ≤ s.cfg.msgCap
  · rw [exec_tx_of_le hpos] at h
    cases h
    exact .sends (msgByte s s.txPos) _
  · rw [exec_tx_of_gt (Nat.lt_of_not_le hpos)] at h
    cases h

/-- Everything an instruction can change, row by row. -/
theorem exec_effect {i : Instr} {s t : State} (h : exec i s = .next t) : Effect s i t := by
  cases i with
  | stx => cases h; exact .parse (.parses nofun)
  | etx => exact .parse (terminate_effect h)
  | dle => cases h; exact .parse (.parses nofun)
  | syn =>
    by_cases hd : s.inData = true
    · rw [exec_syn_of_data hd] at h
      exact .parse (append_effect h)
    · rw [exec_syn_of_noData (by simpa using hd)] at h
      cases h
      exact .parse (.parses nofun)
  | data b => exact .parse (append_effect h)
  | addrMatch b => cases h; exact .parse (.parses nofun)
  | addrForeign b => exact .parse (raiseClass_effect h)
  | typeI => cases h; exact .parse (.parses nofun)
  | typeP => cases h; exact .parse (.parses nofun)
  | typeR => cases h; exact .parse (.parses nofun)
  | typeT => cases h; exact .parse (.parses nofun)
  | typeBad b => exact .parse (raiseClass_effect h)
  | escLit b => exact .parse (append_effect h)
  | flEnd => cases h; exact .parse (.parses nofun)
  | flSkip b => cases h; exact .parse (.parses nofun)
  | flEmpty => cases h; exact .parse (.parses nofun)
  | tx => exact exec_tx_effect h
  | invoke => exact .parse (exec_invoke_effect h)
  | setAddress a =>
    by_cases idle : s.phase = .idle
    · rw [exec_setAddress_of_idle a idle] at h
      cases h
      exact .setsAddress a
    · rw [exec_setAddress_busy a idle] at h
      cases h
  | configure ic oc ii io =>
    by_cases idle : s.phase = .idle
    · by_cases fits : ic ≤ s.cfg.ioCap ∧ oc ≤ s.cfg.ioCap
      · rw [exec_configure_of_fits ii io idle fits] at h
        cases h
        exact .configures ic oc ii io
      · rw [exec_configure_too_large ii io idle (by omega)] at h
        cases h
    · rw [exec_configure_busy ic oc ii io idle] at h
      cases h
  | frameI a p => exact invocation_parseFrame_effect rfl h
  | frameP a p => exact invocation_parseFrame_effect rfl h
  | frameR a p => exact invocation_parseFrame_effect rfl h
  | frameT a p => exact invocation_parseFrame_effect rfl h
  | frameBadtype a t => exact .parse (invocation_parseHeader_effect h)
  | frameForeign a => exact .parse (invocation_parseHeader_effect h)

/-! ## What a step can be -/

/-- Everything a step can be: the kind of move, the instruction it runs, and the state that instruction acts on. -/
inductive Stepped (s : State) : State → Prop where
  /-- the engine waits for a call or holds (log 3) -/
  | waits (a : List Move) : Stepped s { s with agenda := a }
  /-- the transport delivers a byte (R33) -/
  | delivers (a : List Move) (b : Byte) : Stepped s { s with agenda := a, rxq := s.rxq ++ [b] }
  /-- the engine reads a byte (R103, R139) -/
  | reads (a : List Move) (b : Byte) (r : List Byte) (i : Instr) (t : State) (reading : s.phase ≠ .idle ∧ s.phase ≠ .tx)
    (queue : s.rxq = b :: r) (decoded : decode s.env (.byte s.phase b) = .ok i)
    (run : exec i { s with agenda := a, rxq := r } = .next t) : Stepped s t
  /-- the flush finds no byte (R139) -/
  | ends (a : List Move) (t : State) (flushing : s.phase = .flush) (run : exec .flEmpty { s with agenda := a } = .next t) :
    Stepped s t
  /-- the engine sends a byte (R156) -/
  | sends (a : List Move) (t : State) (sending : s.phase = .tx) (run : exec .tx { s with agenda := a } = .next t) :
    Stepped s t
  /-- the application calls (R12) -/
  | calls (a : List Move) (c : Call) (t : State) (head : s.agenda.head? = some (.call c))
    (run : exec (decodeCall c) { s with agenda := a } = .next t) : Stepped s t
  /-- an invocation at the frame grain that finds a frame (log 12) -/
  | frames (a : List Move) (i : Instr) (r : List Byte) (t : State) (head : s.agenda.head? = some .invokeFrame)
    (decoded : decodeFrame s.env s.rxq = .ok (i, r)) (run : exec i { s with agenda := a, rxq := r } = .next t) :
    Stepped s t
  /-- an invocation at the frame grain that finds none (log 12) -/
  | frameless (a : List Move) (t : State) (head : s.agenda.head? = some .invokeFrame)
    (run : exec .invoke { s with agenda := a } = .next t) : Stepped s t
  /-- an engine reset (R211) -/
  | resets (a : List Move) (head : s.agenda.head? = some .reset) : Stepped s (engineReset { s with agenda := a })

theorem stepped_of_engineFetch {s t : State} {a : List Move}
    (h : engineFetch { s with agenda := a } = .silent t ∧ t = { s with agenda := a } ∨
      ∃ i u, engineFetch { s with agenda := a } = .run i u ∧ exec i u = .next t) : Stepped s t := by
  rcases h with ⟨-, rfl⟩ | ⟨i, u, fetched, run⟩
  · exact .waits a
  · rcases engineFetch_cases { s with agenda := a } with
      ⟨-, e⟩ | ⟨-, -, e⟩ | ⟨not_idle, not_tx, b, r, j, queue, decoded, e⟩ | ⟨flushing, -, e⟩ | ⟨sending, e⟩
    · cases fetched.symm.trans e
    · cases fetched.symm.trans e
    · cases fetched.symm.trans e
      exact .reads a b r i t ⟨not_idle, not_tx⟩ queue decoded run
    · cases fetched.symm.trans e
      exact .ends a t flushing run
    · cases fetched.symm.trans e
      exact .sends a t sending run

/-- A step is one of these, and the parameters are admissible. -/
theorem stepped_of_step {s t : State} (h : step s = .next t) : s.cfg.Admissible ∧ Stepped s t := by
  obtain ⟨hc, u, hu, moved⟩ := step_cases h
  obtain ⟨a, rfl⟩ : ∃ a, u = { s with agenda := a } := by
    rcases hu with ⟨rfl, -⟩ | ⟨m, rest, -, rfl⟩
    · exact ⟨u.agenda, rfl⟩
    · exact ⟨rest, rfl⟩
  refine ⟨hc, ?_⟩
  rcases moved with ⟨-, engine⟩ | ⟨b, -, rfl⟩ | ⟨c, head, run⟩ | ⟨head, i, v, fetched, run⟩ | ⟨head, rfl⟩
  · exact stepped_of_engineFetch engine
  · exact .delivers a b
  · exact .calls a c t head run
  · rcases fetchFrame_cases { s with agenda := a } with ⟨j, r, decoded, e⟩ | ⟨-, e⟩
    · cases fetched.symm.trans e
      exact .frames a i r t head decoded run
    · cases fetched.symm.trans e
      exact .frameless a t head run
  · exact .resets a head

/-! ## Which rows a fetch can select -/

/-- A byte selects no row that an agent other than the engine runs, and not TX. -/
theorem decode_byte_row {e : Env} {p : Phase} {b : Byte} {i : Instr} (h : decode e (.byte p b) = .ok i) :
    ¬ CalledByApplication i ∧ i ≠ .tx := by
  have coded := (decodedBytesEncodeBack e p b i h).2
  refine ⟨?_, by rintro rfl; cases coded⟩
  rintro ((rfl | ⟨x, q, rfl | rfl | rfl | rfl⟩ | ⟨x, y, rfl⟩ | ⟨x, rfl⟩) | ⟨x, rfl⟩ | ⟨_, _, _, _, rfl⟩) <;> cases coded

theorem decodeBody_row {c : Config} {k : List Byte → Instr} {bs r : List Byte} {i : Instr}
    (h : decodeBody c k bs = .ok (i, r)) : ∃ p, p.length ≤ c.msgCap ∧ i = k p := by
  unfold decodeBody at h
  split at h
  · split at h
    · rename_i fits
      cases h
      exact ⟨_, fits, rfl⟩
    · cases h
  · cases h

/-- A frame selects a frame row, whose payload fits. -/
theorem decodeFrame_row {e : Env} {bs r : List Byte} {i : Instr} (h : decodeFrame e bs = .ok (i, r)) :
    (∃ a p, p.length ≤ e.cfg.msgCap ∧ (i = .frameI a p ∨ i = .frameP a p ∨ i = .frameR a p ∨ i = .frameT a p)) ∨
    (∃ a t, i = .frameBadtype a t) ∨ ∃ a, i = .frameForeign a := by
  rcases decodeFrame_cases h with ⟨a, t, q, -, -, typed⟩ | ⟨a, -, -, rfl⟩
  · unfold decodeTyped at typed
    split_ifs at typed
    · obtain ⟨p, fits, rfl⟩ := decodeBody_row typed
      exact .inl ⟨a, p, fits, .inl rfl⟩
    · obtain ⟨p, fits, rfl⟩ := decodeBody_row typed
      exact .inl ⟨a, p, fits, .inr (.inl rfl)⟩
    · obtain ⟨p, fits, rfl⟩ := decodeBody_row typed
      exact .inl ⟨a, p, fits, .inr (.inr (.inl rfl))⟩
    · obtain ⟨p, fits, rfl⟩ := decodeBody_row typed
      exact .inl ⟨a, p, fits, .inr (.inr (.inr rfl))⟩
    · cases typed
      exact .inr (.inl ⟨a, t, rfl⟩)
  · exact .inr (.inr ⟨a, rfl⟩)

theorem startsInvocation_of_decodeFrame {e : Env} {bs r : List Byte} {i : Instr} (h : decodeFrame e bs = .ok (i, r)) :
    StartsInvocation i := by
  rcases decodeFrame_row h with ⟨a, p, -, row⟩ | ⟨a, t, rfl⟩ | ⟨a, rfl⟩
  · exact .inr (.inl ⟨a, p, row⟩)
  · exact .inr (.inr (.inl ⟨a, t, rfl⟩))
  · exact .inr (.inr (.inr ⟨a, rfl⟩))

/-- What a step's instruction says of the move: TX is run in TX only, a configuration call is the next move. -/
structure FetchedBy (s : State) (i : Instr) : Prop where
  /-- the send step is the engine's in TX -/
  sending : i = .tx → s.phase = .tx
  /-- `setAddress` is a call -/
  addressing : ∀ a, i = .setAddress a → s.agenda.head? = some (.call (.setAddress a))
  /-- `configure` is a call -/
  configuring : ∀ ic oc ii io, i = .configure ic oc ii io → s.agenda.head? = some (.call (.configure ic oc ii io))

theorem fetchedBy_of_engine {s : State} {i : Instr} (hi : ¬ CalledByApplication i) (hs : i = .tx → s.phase = .tx) :
    FetchedBy s i where
  sending := hs
  addressing a row := absurd (.inr (.inl ⟨a, row⟩)) hi
  configuring ic oc ii io row := absurd (.inr (.inr ⟨ic, oc, ii, io, row⟩)) hi

theorem fetchedBy_of_starts {s : State} {i : Instr} (hi : StartsInvocation i) : FetchedBy s i := by
  rcases hi with rfl | ⟨a, p, rfl | rfl | rfl | rfl⟩ | ⟨a, t, rfl⟩ | ⟨a, rfl⟩ <;> exact ⟨nofun, nofun, nofun⟩

theorem fetchedBy_of_call {s : State} {c : Call} (head : s.agenda.head? = some (.call c)) : FetchedBy s (decodeCall c) := by
  cases c with
  | invoke => exact fetchedBy_of_starts (.inl rfl)
  | setAddress a => exact ⟨nofun, fun _ row => by cases row; exact head, nofun⟩
  | configure ic oc ii io => exact ⟨nofun, nofun, fun _ _ _ _ row => by cases row; exact head⟩

/-- Everything a step can change: the agenda, a delivered byte, a reset, or what one instruction changes. -/
inductive StepEffect (s : State) : State → Prop where
  /-- nothing but the agenda -/
  | waits (a : List Move) : StepEffect s { s with agenda := a }
  /-- a byte more in `rxq` -/
  | delivers (a : List Move) (b : Byte) : StepEffect s { s with agenda := a, rxq := s.rxq ++ [b] }
  /-- an instruction, after its input was consumed -/
  | runs (a : List Move) (r : List Byte) (i : Instr) (t : State) (fetched : FetchedBy s i)
    (effect : Effect { s with agenda := a, rxq := r } i t) : StepEffect s t
  /-- an engine reset -/
  | resets (a : List Move) (head : s.agenda.head? = some .reset) : StepEffect s (engineReset { s with agenda := a })

theorem step_effect {s t : State} (h : step s = .next t) : StepEffect s t := by
  cases (stepped_of_step h).2 with
  | waits a => exact .waits a
  | delivers a b => exact .delivers a b
  | reads a b r i _ reading queue decoded run =>
    obtain ⟨engine, not_tx⟩ := decode_byte_row decoded
    exact .runs a r i t (fetchedBy_of_engine engine fun row => absurd row not_tx) (exec_effect run)
  | ends a _ flushing run =>
    exact .runs a s.rxq .flEmpty t ⟨nofun, nofun, nofun⟩ (exec_effect run)
  | sends a _ sending run =>
    exact .runs a s.rxq .tx t ⟨fun _ => sending, nofun, nofun⟩ (exec_effect run)
  | calls a c _ head run => exact .runs a s.rxq _ t (fetchedBy_of_call head) (exec_effect run)
  | frames a i r _ head decoded run =>
    exact .runs a r i t (fetchedBy_of_starts (startsInvocation_of_decodeFrame decoded)) (exec_effect run)
  | frameless a _ head run => exact .runs a s.rxq .invoke t (fetchedBy_of_starts (.inl rfl)) (exec_effect run)
  | resets a head => exact .resets a head

/-! ## The obligations -/

/-- Settles O57: no effect writes `cfg`. -/
theorem parametersAreFixed : Obligations.ParametersAreFixed := by
  intro s t h
  cases step_effect h with
  | waits => rfl
  | delivers => rfl
  | runs a r i _ fetched effect =>
    cases effect with
    | parse parsed => cases parsed <;> rfl
    | overrun => rfl
    | sends => rfl
    | setsAddress => rfl
    | configures => rfl
  | resets => rfl

/-- Settles O50: of the effects, only the two configuration calls' and the reset's write the registers or the answer. -/
theorem noFrameWritesTheConfiguration : Obligations.NoFrameWritesTheConfiguration := by
  intro s t h no_setAddress no_configure no_reset
  cases step_effect h with
  | waits => exact ⟨⟨rfl, rfl, rfl, rfl, rfl, rfl, rfl⟩, rfl⟩
  | delivers => exact ⟨⟨rfl, rfl, rfl, rfl, rfl, rfl, rfl⟩, rfl⟩
  | runs a r i _ fetched effect =>
    cases effect with
    | parse parsed => cases parsed <;> exact ⟨⟨rfl, rfl, rfl, rfl, rfl, rfl, rfl⟩, rfl⟩
    | overrun => exact ⟨⟨rfl, rfl, rfl, rfl, rfl, rfl, rfl⟩, rfl⟩
    | sends => exact ⟨⟨rfl, rfl, rfl, rfl, rfl, rfl, rfl⟩, rfl⟩
    | setsAddress x => exact absurd (fetched.addressing x rfl) (no_setAddress x)
    | configures ic oc ii io => exact absurd (fetched.configuring ic oc ii io rfl) (no_configure ic oc ii io)
  | resets a head => exact absurd head no_reset

/-- Settles O51: outside TX the instruction is not the send step, and the phase TX comes with the class *poll*. -/
theorem onlyTheSendStepTransmits : Obligations.OnlyTheSendStepTransmits := by
  intro s t h not_sending
  cases step_effect h with
  | waits => exact ⟨rfl, fun sending => absurd sending not_sending⟩
  | delivers => exact ⟨rfl, fun sending => absurd sending not_sending⟩
  | runs a r i _ fetched effect =>
    cases effect with
    | parse parsed =>
      cases parsed with
      | parses not_tx => exact ⟨rfl, fun sending => absurd sending not_tx⟩
      | polls => exact ⟨rfl, fun _ => rfl⟩
      | applies => exact ⟨rfl, nofun⟩
    | overrun => exact ⟨rfl, nofun⟩
    | sends => exact absurd (fetched.sending rfl) not_sending
    | setsAddress => exact ⟨rfl, fun sending => absurd sending not_sending⟩
    | configures => exact ⟨rfl, fun sending => absurd sending not_sending⟩
  | resets => exact ⟨rfl, nofun⟩

/-- Settles O52: the send step appends to one log, the reaction to a *transmit* to the other. -/
theorem logsOnlyGrow : Obligations.LogsOnlyGrow := by
  intro s t h
  have same : ∀ {α : Type} (l : List α), ∃ more, l = l ++ more := fun l => ⟨[], (List.append_nil l).symm⟩
  cases step_effect h with
  | waits => exact ⟨same _, same _⟩
  | delivers => exact ⟨same _, same _⟩
  | runs a r i _ fetched effect =>
    cases effect with
    | parse parsed =>
      cases parsed with
      | parses => exact ⟨same _, same _⟩
      | polls => exact ⟨same _, same _⟩
      | applies bs => exact ⟨same _, [bs], rfl⟩
    | overrun => exact ⟨same _, same _⟩
    | sends _ ev => exact ⟨⟨ev, rfl⟩, same _⟩
    | setsAddress => exact ⟨same _, same _⟩
    | configures => exact ⟨same _, same _⟩
  | resets => exact ⟨same _, same _⟩

/-- Settles O53: of the effects, only a *transmit*'s and the reset's write the outputs. -/
theorem onlyATransmitAppliesOutputs : Obligations.OnlyATransmitAppliesOutputs := by
  intro s t h
  cases step_effect h with
  | waits => exact .inl ⟨rfl, rfl⟩
  | delivers => exact .inl ⟨rfl, rfl⟩
  | runs a r i _ fetched effect =>
    cases effect with
    | parse parsed =>
      cases parsed with
      | parses => exact .inl ⟨rfl, rfl⟩
      | polls => exact .inl ⟨rfl, rfl⟩
      | applies bs count => exact .inr (.inl ⟨bs, count, rfl, rfl, rfl⟩)
    | overrun => exact .inl ⟨rfl, rfl⟩
    | sends => exact .inl ⟨rfl, rfl⟩
    | setsAddress => exact .inl ⟨rfl, rfl⟩
    | configures => exact .inl ⟨rfl, rfl⟩
  | resets a head => exact .inr (.inr ⟨head, rfl, fun _ => rfl⟩)

/-! ## Who reads `rxq` -/

theorem parseEffect_rxq {s t : State} (h : ParseEffect s t) : t.rxq = s.rxq := by cases h <;> rfl

/-- Without an echo, only a whole frame's row changes `rxq` itself. -/
theorem effect_rxq {s t : State} {i : Instr} (no_echo : s.cfg.rxSeesOwnTx = false) (no_frame : isPayloadFrame i = false)
    (h : Effect s i t) : t.rxq = s.rxq := by
  cases h with
  | parse parsed => exact parseEffect_rxq parsed
  | overrun row => cases no_frame.symm.trans row
  | sends => exact if_neg (by simp [no_echo])
  | setsAddress => rfl
  | configures => rfl

/-- Settles O54: a byte is removed by the fetch that reads it, and no instruction of the byte grain touches the rest. -/
theorem receivedBytesAreReadInOrderEachOnce : Obligations.ReceivedBytesAreReadInOrderEachOnce := by
  intro s t h no_echo no_frames
  cases (stepped_of_step h).2 with
  | waits => exact .inl rfl
  | delivers a b => exact .inr (.inr ⟨b, rfl⟩)
  | reads a b r i _ reading queue decoded run =>
    have engine := (decode_byte_row decoded).1
    have no_frame : isPayloadFrame i = false :=
      Bool.eq_false_iff.2 fun row => engine (.inl (startsInvocation_of_payloadFrame row))
    have kept := effect_rxq (s := { s with agenda := a, rxq := r }) no_echo no_frame (exec_effect run)
    exact .inr (.inl ⟨b, queue.trans (congrArg (b :: ·) kept.symm)⟩)
  | ends a _ flushing run => exact .inl (effect_rxq (s := { s with agenda := a }) no_echo rfl (exec_effect run))
  | sends a _ sending run => exact .inl (effect_rxq (s := { s with agenda := a }) no_echo rfl (exec_effect run))
  | calls a c _ head run =>
    have no_frame : isPayloadFrame (decodeCall c) = false := by cases c <;> rfl
    exact .inl (effect_rxq (s := { s with agenda := a }) no_echo no_frame (exec_effect run))
  | frames a i r _ head => exact absurd head no_frames
  | frameless a _ head => exact absurd head no_frames
  | resets => exact .inl rfl

/-- Settles O55: in TX no byte is fetched and every call and frame is refused; the send step can only add its echo. -/
theorem nothingIsReadDuringTransmission : Obligations.NothingIsReadDuringTransmission := by
  intro s t h sending
  have busy : s.phase ≠ .idle := by simp [sending]
  cases (stepped_of_step h).2 with
  | waits => exact ⟨[], (List.append_nil _).symm⟩
  | delivers a b => exact ⟨[b], rfl⟩
  | reads a b r i _ reading => exact absurd sending reading.2
  | ends a _ flushing => cases sending.symm.trans flushing
  | sends a _ _ run =>
    cases exec_effect run with
    | parse parsed => exact ⟨[], (parseEffect_rxq parsed).trans (List.append_nil _).symm⟩
    | overrun row => cases row
    | sends b =>
      by_cases echo : s.cfg.rxSeesOwnTx = true
      · exact ⟨[b], if_pos echo⟩
      · exact ⟨[], (if_neg echo).trans (List.append_nil _).symm⟩
  | calls a c _ head run =>
    have called : CalledByApplication (decodeCall c) := by
      cases c with
      | invoke => exact .inl (.inl rfl)
      | setAddress x => exact .inr (.inl ⟨x, rfl⟩)
      | configure ic oc ii io => exact .inr (.inr ⟨ic, oc, ii, io, rfl⟩)
    cases (exec_called_busy (s := { s with agenda := a }) busy called).symm.trans run
  | frames a i r _ head decoded run =>
    have called : CalledByApplication i := .inl (startsInvocation_of_decodeFrame decoded)
    cases (exec_called_busy (s := { s with agenda := a, rxq := r }) busy called).symm.trans run
  | frameless a _ head run =>
    cases (exec_called_busy (s := { s with agenda := a }) busy (.inl (.inl rfl))).symm.trans run
  | resets => exact ⟨[], (List.append_nil _).symm⟩

end Sys2Proof
end

section
/-! The invariant (spec/10_state.md R39, spec/20_memory.md R52, R57, R59): every step keeps it, no step from it faults, and what it
says of R39 as written. -/

namespace Sys2Proof

open Sys2Proof.Machine

/-! ## Inside an invocation -/

/-- What the invariant says of the registers and buffers of a configured engine, whatever the phase. -/
abbrev Underway (s : State) : Prop :=
  s.cfg.Admissible ∧ RangesOk s ∧ BuffersOk s ∧ s.addressWritten = true ∧ s.countsWritten = true

theorem underway_of_stateOk {s : State} (h : StateOk s) (not_idle : s.phase ≠ .idle) : Underway s := by
  obtain ⟨admissible, ranges, buffers, -, -, invocation⟩ := h
  obtain ⟨addressed, counted⟩ := invocation not_idle
  exact ⟨admissible, ranges, buffers, addressed, counted⟩

/-- In IDLE nothing is asked of a response, a parse or an invocation. -/
theorem stateOk_of_idle {s : State} (hp : s.phase = .idle) (hc : s.cfg.Admissible) (ranges : RangesOk s)
    (buffers : BuffersOk s) : StateOk s :=
  ⟨hc, ranges, buffers, by simp [TransmitOk, hp], by simp [ParseOk, hp], fun busy => absurd hp busy⟩

theorem stateOk_of_flush {s : State} (hp : s.phase = .flush) (h : Underway s) : StateOk s := by
  obtain ⟨admissible, ranges, buffers, addressed, counted⟩ := h
  exact ⟨admissible, ranges, buffers, by simp [TransmitOk, hp], by simp [ParseOk, hp], fun _ => ⟨addressed, counted⟩⟩

theorem stateOk_of_reading {s : State} (hp : Reading s.phase) (h : Underway s)
    (held : ∀ i < s.idx, (s.msg.find i).isSome = true) (entry : s.inData = false → s.cls = s.cfg.clsInitial)
    (header : s.phase = .rdAddr ∨ s.phase = .rdType → s.inData = true) : StateOk s := by
  obtain ⟨admissible, ranges, buffers, addressed, counted⟩ := h
  have not_tx : s.phase ≠ .tx := by rintro sending; simp [Reading, sending] at hp
  exact ⟨admissible, ranges, buffers, fun sending => absurd sending not_tx, fun _ => ⟨held, entry, header⟩,
    fun _ => ⟨addressed, counted⟩⟩

/-! ## The reactions -/

theorem underway_storeSentinel {s : State} (h : Underway s) : Underway (storeSentinel s) := by
  obtain ⟨admissible, ranges, ⟨msg_wf, inputs_wf, outputs_wf, inputs_clear⟩, addressed, counted⟩ := h
  obtain ⟨-, -, -, idx_le, -⟩ := id ranges
  have wf : Memory.wf (s.cfg.msgCap + 1) none (storeSentinel s).msg = true :=
    Memory.wf_forgetAbove s.idx (Memory.wf_write msg_wf (Nat.lt_succ_of_le idx_le))
  exact ⟨admissible, ranges, ⟨wf, inputs_wf, outputs_wf, inputs_clear⟩, addressed, counted⟩

/-- A canonical I/O buffer that reads zero everywhere lists nothing (R59; log 25). -/
theorem eq_nil_of_ioByte_zero {cells : Nat} {m : Memory} (wf : Memory.wf cells (some 0#8) m = true)
    (zero : ∀ i, ioByte m i = 0#8) : m = [] := by
  cases m with
  | nil => rfl
  | cons c r =>
    obtain ⟨k, v⟩ := c
    have read : v = 0#8 := by simpa [ioByte, Memory.find] using zero k
    simp [Memory.wf, read] at wf

/-- Sampling and clearing leave an all-zero `inputBits` (R59, R153). -/
theorem inputBits_assemble_sampleInputs (f : List Byte) {s : State} (hn : s.inCount ≤ s.cfg.ioCap)
    (wf : Memory.wf s.cfg.ioCap (some 0#8) s.inputBits = true) (clear : s.inputBits = []) :
    (assemble f (sampleInputs s)).inputBits = [] := by
  have sampled : Memory.wf s.cfg.ioCap (some 0#8) (sampleInputs s).inputBits = true := wf_ioStore wf (by simpa using hn)
  have cleared : Memory.wf s.cfg.ioCap (some 0#8) (assemble f (sampleInputs s)).inputBits = true :=
    wf_ioStore sampled (by simpa using hn)
  have zero : ∀ i, ioByte (assemble f (sampleInputs s)).inputBits i = 0#8 := fun i => by
    by_cases hi : i < s.inCount
    · exact ioByte_assemble_of_lt (s := sampleInputs s) f hi
    · rw [ioByte_assemble_sampleInputs f (Nat.le_of_not_lt hi), clear]
      rfl
  exact eq_nil_of_ioByte_zero cleared zero

/-- Build after the sampling: a response of at most six bytes and two for every input, all of it in `msg` (R155). -/
theorem build_sampleInputs_keeps {s t : State} (h : Underway s) (built : build (sampleInputs s) = .next t) : StateOk t := by
  obtain ⟨admissible, ranges, ⟨msg_wf, inputs_wf, outputs_wf, inputs_clear⟩, addressed, counted⟩ := h
  obtain ⟨address_le, in_le, out_le, idx_le, -, -, -, delay⟩ := ranges
  obtain ⟨fits, rfl⟩ := build_next built
  generalize response : responseBytes (sampleInputs s) (ioBytes (sampleInputs s).inputBits (sampleInputs s).inCount) = f
    at fits
  have f_le : f.length ≤ 6 + 2 * s.inCount := by
    have bound := responseBytes_length_le (sampleInputs s) (ioBytes (sampleInputs s).inputBits (sampleInputs s).inCount)
    rwa [response, ioBytes_length] at bound
  have f_ge : 6 ≤ f.length := by
    rw [← response, responseBytes_eq_wireFrame, wireFrame_length]
    exact Nat.le_add_right _ _
  have reported : reportedCount (assemble f (sampleInputs s)) = s.inCount := reportedCount_afterSample s s.inCount
  have inputs_nil := inputBits_assemble_sampleInputs f in_le inputs_wf inputs_clear
  have ranges : RangesOk (assemble f (sampleInputs s)) :=
    ⟨address_le, in_le, out_le, idx_le, Nat.zero_le _, reported.symm ▸ f_le, reported.trans_le in_le, delay⟩
  have buffers : BuffersOk (assemble f (sampleInputs s)) :=
    ⟨wf_msgStore msg_wf (by simpa using fits), by rw [inputs_nil]; exact Memory.wf_nil _ _, outputs_wf, inputs_nil⟩
  have held : ∀ i < f.length, ((assemble f (sampleInputs s)).msg.find i).isSome = true := fun i hi => by
    rw [assemble_msg, find_msgStore_zero_of_lt _ hi, List.getElem?_eq_getElem hi]
    rfl
  have unsent : 0 < f.length := by omega
  exact ⟨admissible, ranges, buffers, fun _ => ⟨unsent, f_le, held⟩, nofun, fun _ => ⟨addressed, counted⟩⟩

/-- Every reaction ends the invocation, enters the flush or begins a response. -/
theorem react_keeps {s t : State} (h : Underway s) (run : react s = .next t) : StateOk t := by
  obtain ⟨admissible, ranges, buffers, written⟩ := id h
  rcases react_next run with ⟨-, rfl⟩ | ⟨-, -, rfl⟩ | ⟨-, -, built⟩ | ⟨-, -, -, rfl⟩ | ⟨-, rfl⟩
  · exact stateOk_of_idle rfl admissible ranges buffers
  · obtain ⟨address_le, in_le, out_le, idx_le, pos_le, len_le, reported_le, -⟩ := ranges
    exact stateOk_of_idle rfl admissible
      ⟨address_le, in_le, out_le, idx_le, pos_le, len_le, reported_le, delayOf_mod_ten _ _, delayOf_le _ _⟩ buffers
  · exact build_sampleInputs_keeps h built
  · obtain ⟨-, -, out_le, -⟩ := id ranges
    obtain ⟨msg_wf, inputs_wf, outputs_wf, inputs_clear⟩ := buffers
    have copied : Memory.wf s.cfg.ioCap (some 0#8) (copyOutputs s).outputBits = true :=
      wf_ioStore outputs_wf (by simpa using out_le)
    exact stateOk_of_idle rfl admissible ranges ⟨msg_wf, inputs_wf, copied, inputs_clear⟩
  · exact stateOk_of_flush rfl ⟨admissible, ranges, buffers, written⟩

theorem terminate_keeps {s t : State} (h : Underway s) (run : terminate s = .next t) : StateOk t :=
  react_keeps (underway_storeSentinel h) (terminate_next run).2

theorem raiseClass_keeps {c : Classification} {s t : State} (h : Underway s) (run : raiseClass c s = .next t) : StateOk t :=
  terminate_keeps (s := classify c s) h run

theorem append_keeps {b : Byte} {s t : State} (h : Underway s) (held : ∀ i < s.idx, (s.msg.find i).isSome = true)
    (entry : s.inData = false → s.cls = s.cfg.clsInitial) (run : append b { s with phase := .rdByte } = .next t) :
    StateOk t := by
  by_cases room : s.idx < s.cfg.msgCap
  · cases (append_fits (s := { s with phase := .rdByte }) room).symm.trans run
    obtain ⟨admissible, ⟨address_le, in_le, out_le, -, ranges⟩, ⟨msg_wf, buffers⟩, written⟩ := h
    refine stateOk_of_reading (.inl rfl) ⟨admissible, ⟨address_le, in_le, out_le, room, ranges⟩,
      ⟨Memory.wf_write msg_wf (Nat.lt_succ_of_lt room), buffers⟩, written⟩ (fun i hi => ?_) entry (by simp)
    rw [Memory.find_write]
    by_cases last : i = s.idx
    · simp [last]
    · have below : i < s.idx := by
        have : i < s.idx + 1 := hi
        omega
      rw [if_neg last]
      exact held i below
  · have overrun : raiseClass .error { s with phase := .rdByte } = .next t := by
      rwa [append, if_neg room] at run
    exact raiseClass_keeps (s := { s with phase := .rdByte }) h overrun

/-! ## The rows that read a byte -/

theorem exec_decodeRdByte_keeps {s t : State} {b : Byte} (h : StateOk s) (hp : s.phase = .rdByte)
    (run : exec (decodeRdByte s.cfg b) s = .next t) : StateOk t := by
  have underway := underway_of_stateOk h (by simp [hp])
  obtain ⟨-, -, -, -, parse, -⟩ := h
  obtain ⟨held, entry, -⟩ := parse (.inl hp)
  unfold decodeRdByte at run
  split_ifs at run
  · cases run
    exact stateOk_of_reading (.inr (.inl rfl)) underway held nofun fun _ => rfl
  · exact terminate_keeps underway run
  · cases run
    exact stateOk_of_reading (.inr (.inr (.inr rfl))) underway held entry (by simp)
  · by_cases data : s.inData = true
    · rw [exec_syn_of_data data] at run
      exact append_keeps underway held entry run
    · rw [exec_syn_of_noData (by simpa using data)] at run
      cases run
      exact stateOk_of_reading (.inl rfl) underway held entry (by simp)
  · exact append_keeps underway held entry run

theorem exec_decodeRdAddr_keeps {s t : State} {b : Byte} (h : StateOk s) (hp : s.phase = .rdAddr)
    (run : exec (decodeRdAddr s.address b) s = .next t) : StateOk t := by
  have underway := underway_of_stateOk h (by simp [hp])
  obtain ⟨-, -, -, -, parse, -⟩ := h
  obtain ⟨held, entry, header⟩ := parse (.inr (.inl hp))
  unfold decodeRdAddr at run
  split_ifs at run
  · cases run
    exact stateOk_of_reading (.inr (.inr (.inl rfl))) underway held entry fun _ => header (.inl hp)
  · exact raiseClass_keeps underway run

theorem exec_decodeRdType_keeps {s t : State} {b : Byte} (h : StateOk s) (hp : s.phase = .rdType)
    (run : exec (decodeRdType b) s = .next t) : StateOk t := by
  have underway := underway_of_stateOk h (by simp [hp])
  obtain ⟨-, -, -, -, parse, -⟩ := h
  obtain ⟨held, -, header⟩ := parse (.inr (.inr (.inl hp)))
  have data : s.inData = true := header (.inr hp)
  have classified : ∀ c, StateOk { s with cls := c, phase := .rdByte } := fun c =>
    stateOk_of_reading (.inl rfl) underway held (fun no_data => by cases data.symm.trans no_data) (by simp)
  unfold decodeRdType at run
  split_ifs at run
  · cases run
    exact classified .init
  · cases run
    exact classified .poll
  · cases run
    exact classified .read
  · cases run
    exact classified .transmit
  · exact raiseClass_keeps underway run

theorem exec_decodeFlush_keeps {s t : State} {b : Byte} (h : StateOk s) (hp : s.phase = .flush)
    (run : exec (decodeFlush s.cfg b) s = .next t) : StateOk t := by
  have underway := underway_of_stateOk h (by simp [hp])
  obtain ⟨admissible, ranges, buffers, -⟩ := h
  unfold decodeFlush at run
  split_ifs at run
  · cases run
    exact stateOk_of_idle rfl admissible ranges buffers
  · cases run
    exact stateOk_of_flush rfl underway

/-- Whatever byte the engine reads, its row keeps the invariant. -/
theorem exec_read_keeps {s t : State} {b : Byte} {i : Instr} (h : StateOk s)
    (decoded : decode s.env (.byte s.phase b) = .ok i) (run : exec i s = .next t) : StateOk t := by
  cases hp : s.phase with
  | idle => exact absurd (hp ▸ decoded) not_decode_idle
  | tx => exact absurd (hp ▸ decoded) not_decode_tx
  | rdByte =>
    rw [hp] at decoded
    cases decoded
    exact exec_decodeRdByte_keeps h hp run
  | rdAddr =>
    rw [hp] at decoded
    cases decoded
    exact exec_decodeRdAddr_keeps h hp run
  | rdType =>
    rw [hp] at decoded
    cases decoded
    exact exec_decodeRdType_keeps h hp run
  | rdEsc =>
    rw [hp] at decoded
    cases decoded
    have underway := underway_of_stateOk h (by simp [hp])
    obtain ⟨-, -, -, -, parse, -⟩ := h
    obtain ⟨held, entry, -⟩ := parse (.inr (.inr (.inr hp)))
    exact append_keeps underway held entry run
  | flush =>
    rw [hp] at decoded
    cases decoded
    exact exec_decodeFlush_keeps h hp run

/-! ## The send step, the calls and the frames -/

theorem txLen_le_of_sending {s : State} (h : StateOk s) (hp : s.phase = .tx) : s.txLen ≤ 6 + 2 * s.inCount := by
  obtain ⟨-, -, -, transmit, -⟩ := h
  obtain ⟨-, len_le, -⟩ := transmit hp
  exact len_le

theorem sending_fits {s : State} (h : StateOk s) (hp : s.phase = .tx) : s.txPos ≤ s.cfg.msgCap := by
  obtain ⟨⟨-, -, room, -⟩, ⟨-, in_le, -⟩, -, transmit, -⟩ := h
  obtain ⟨pos_lt, len_le, -⟩ := transmit hp
  omega

theorem exec_tx_keeps {s t : State} (h : StateOk s) (hp : s.phase = .tx) (run : exec .tx s = .next t) : StateOk t := by
  cases (exec_tx_of_le (sending_fits h hp)).symm.trans run
  obtain ⟨admissible, ⟨address_le, in_le, out_le, idx_le, -, ranges⟩, buffers, transmit, -, invocation⟩ := h
  obtain ⟨pos_lt, len_le, held⟩ := transmit hp
  have written := invocation (by simp [hp])
  have ranges : RangesOk { s with txPos := s.txPos + 1 } := ⟨address_le, in_le, out_le, idx_le, pos_lt, ranges⟩
  by_cases last : s.txPos + 1 = s.txLen
  · simp only [last, if_true]
    exact stateOk_of_idle rfl admissible (last ▸ ranges) buffers
  · simp only [last, if_false]
    have more : s.txPos + 1 < s.txLen := by omega
    exact ⟨admissible, ranges, buffers, fun _ => ⟨more, len_le, held⟩, nofun, fun _ => written⟩

theorem exec_invoke_keeps {s t : State} (h : StateOk s) (run : exec .invoke s = .next t) : StateOk t := by
  have started : execInvoke s = .next t := run
  obtain ⟨idle, addressed, counted, -⟩ := invocation_next started
  obtain ⟨admissible, ranges, buffers, -⟩ := h
  by_cases hr : s.rxq = []
  · cases (exec_invoke_empty idle addressed counted hr).symm.trans run
    exact stateOk_of_idle idle admissible ranges buffers
  · cases (exec_invoke_received idle addressed counted hr).symm.trans run
    obtain ⟨address_le, in_le, out_le, -, ranges⟩ := ranges
    exact stateOk_of_reading (.inl rfl)
      ⟨admissible, ⟨address_le, in_le, out_le, Nat.zero_le _, ranges⟩, buffers, addressed, counted⟩ nofun (fun _ => rfl)
      (by simp)

theorem exec_setAddress_keeps {s t : State} {a : Byte} (h : StateOk s) (run : exec (.setAddress a) s = .next t) :
    StateOk t := by
  by_cases idle : s.phase = .idle
  · cases (exec_setAddress_of_idle a idle).symm.trans run
    obtain ⟨admissible, ⟨-, ranges⟩, buffers, -⟩ := h
    exact stateOk_of_idle idle admissible ⟨clampAddress_le a, ranges⟩ buffers
  · cases (exec_setAddress_busy a idle).symm.trans run

theorem exec_configure_next {s t : State} {ic oc : Nat} {ii io : Bool} (run : exec (.configure ic oc ii io) s = .next t) :
    s.phase = .idle ∧ (ic ≤ s.cfg.ioCap ∧ oc ≤ s.cfg.ioCap) ∧
    t = { s with inCount := ic, outCount := oc, invIn := ii, invOut := io, countsWritten := true } := by
  by_cases idle : s.phase = .idle
  · by_cases fits : ic ≤ s.cfg.ioCap ∧ oc ≤ s.cfg.ioCap
    · cases (exec_configure_of_fits ii io idle fits).symm.trans run
      exact ⟨idle, fits, rfl⟩
    · cases (exec_configure_too_large ii io idle (by omega)).symm.trans run
  · cases (exec_configure_busy ic oc ii io idle).symm.trans run

theorem exec_configure_keeps {s t : State} {ic oc : Nat} {ii io : Bool} (h : StateOk s)
    (run : exec (.configure ic oc ii io) s = .next t) : StateOk t := by
  obtain ⟨idle, ⟨ic_le, oc_le⟩, rfl⟩ := exec_configure_next run
  obtain ⟨admissible, ⟨address_le, -, -, ranges⟩, buffers, -⟩ := h
  exact stateOk_of_idle idle admissible ⟨address_le, ic_le, oc_le, ranges⟩ buffers

theorem exec_call_keeps {s t : State} {c : Call} (h : StateOk s) (run : exec (decodeCall c) s = .next t) : StateOk t := by
  cases c with
  | invoke => exact exec_invoke_keeps h run
  | setAddress a => exact exec_setAddress_keeps h run
  | configure ic oc ii io => exact exec_configure_keeps h run

theorem invocation_parseFrame_keeps {c : Classification} {p : List Byte} {s t : State} (h : StateOk s)
    (fits : p.length ≤ s.cfg.msgCap) (run : invocation s (parseFrame c p) = .next t) : StateOk t := by
  obtain ⟨-, addressed, counted, parsed⟩ := invocation_next run
  obtain ⟨admissible, ⟨address_le, in_le, out_le, -, ranges⟩, ⟨msg_wf, buffers⟩, -⟩ := h
  rw [parseFrame_eq_exec_etx fits] at parsed
  have stored : Memory.wf (s.cfg.msgCap + 1) none (msgStore s.msg 0 p) = true := wf_msgStore msg_wf (by omega)
  exact terminate_keeps (s := payloadRead c p s)
    ⟨admissible, ⟨address_le, in_le, out_le, fits, ranges⟩, ⟨stored, buffers⟩, addressed, counted⟩ parsed

theorem invocation_parseHeader_keeps {c : Classification} {s t : State} (h : StateOk s)
    (run : invocation s (parseHeader c) = .next t) : StateOk t := by
  obtain ⟨-, addressed, counted, parsed⟩ := invocation_next run
  obtain ⟨admissible, ⟨address_le, in_le, out_le, -, ranges⟩, buffers, -⟩ := h
  exact raiseClass_keeps (s := enterDataMode (loopEntry s))
    ⟨admissible, ⟨address_le, in_le, out_le, Nat.zero_le _, ranges⟩, buffers, addressed, counted⟩ parsed

theorem exec_frame_keeps {s t : State} {bs r : List Byte} {i : Instr} (h : StateOk s)
    (decoded : decodeFrame s.env bs = .ok (i, r)) (run : exec i s = .next t) : StateOk t := by
  rcases decodeFrame_row decoded with ⟨a, p, fits, rfl | rfl | rfl | rfl⟩ | ⟨a, ty, rfl⟩ | ⟨a, rfl⟩
  · exact invocation_parseFrame_keeps h fits run
  · exact invocation_parseFrame_keeps h fits run
  · exact invocation_parseFrame_keeps h fits run
  · exact invocation_parseFrame_keeps h fits run
  · exact invocation_parseHeader_keeps h run
  · exact invocation_parseHeader_keeps h run

theorem engineReset_keeps {s : State} (h : StateOk s) : StateOk (engineReset s) := by
  obtain ⟨admissible, ⟨-, -, -, -, -, -, reported_le, -⟩, -⟩ := h
  exact stateOk_of_idle rfl admissible
    ⟨Nat.zero_le _, Nat.zero_le _, Nat.zero_le _, Nat.zero_le _, Nat.le_refl _, Nat.zero_le _, reported_le, rfl,
      Nat.zero_le _⟩
    ⟨rfl, rfl, rfl, rfl⟩

/-- Settles O47, by the kind of step; the agenda and `rxq` are no part of the invariant. -/
theorem everyStepKeepsTheInvariant : Obligations.EveryStepKeepsTheInvariant := by
  intro s t h run
  cases (stepped_of_step run).2 with
  | waits => exact h
  | delivers => exact h
  | reads a b r i _ reading queue decoded run => exact exec_read_keeps (s := { s with agenda := a, rxq := r }) h decoded run
  | ends a _ flushing run =>
    cases run
    obtain ⟨admissible, ranges, buffers, -⟩ := h
    exact stateOk_of_idle rfl admissible ranges buffers
  | sends a _ sending run => exact exec_tx_keeps (s := { s with agenda := a }) h sending run
  | calls a c _ head run => exact exec_call_keeps (s := { s with agenda := a }) h run
  | frames a i r _ head decoded run => exact exec_frame_keeps (s := { s with agenda := a, rxq := r }) h decoded run
  | frameless a _ head run => exact exec_invoke_keeps (s := { s with agenda := a }) h run
  | resets a => exact engineReset_keeps (s := { s with agenda := a }) h

/-- Settles O46: the reset state's registers are zero and its buffers empty. -/
theorem resetStateSatisfiesTheInvariant : Obligations.ResetStateSatisfiesTheInvariant :=
  ⟨by decide, by decide, rfl, rfl, rfl, rfl, rfl, fun _ => ⟨rfl, rfl⟩, rfl, rfl, rfl⟩

/-! ## No step faults -/

/-- What the end of a parse needs to complete: every index and count inside its buffer (R52). -/
abbrev Bounded (s : State) : Prop :=
  s.cfg.Admissible ∧ s.idx ≤ s.cfg.msgCap ∧ s.inCount ≤ s.cfg.ioCap ∧ s.outCount ≤ s.cfg.ioCap

theorem bounded_of_stateOk {s : State} (h : StateOk s) : Bounded s := by
  obtain ⟨admissible, ⟨-, in_le, out_le, idx_le, -⟩, -⟩ := h
  exact ⟨admissible, idx_le, in_le, out_le⟩

theorem react_completes {s : State} (h : Bounded s) : ∃ t, react s = .next t := by
  obtain ⟨admissible, -, in_le, out_le⟩ := h
  cases hcls : s.cls with
  | none => exact ⟨_, react_of_none hcls⟩
  | init => exact ⟨_, (react_of_init hcls).trans (reactInit_completes (delay_position_fits admissible))⟩
  | poll => exact ⟨_, (react_of_poll hcls).trans (reactPoll_assembles admissible in_le)⟩
  | transmit => exact ⟨_, (react_of_transmit hcls).trans (reactTransmit_applies admissible out_le)⟩
  | read => exact ⟨enterFlush s, by simp only [react, hcls, reactRead]⟩
  | error => exact ⟨enterFlush s, by simp only [react, hcls, reactError]⟩
  | ignore => exact ⟨enterFlush s, by simp only [react, hcls, reactIgnore]⟩

theorem terminate_completes {s : State} (h : Bounded s) : ∃ t, terminate s = .next t := by
  obtain ⟨-, idx_le, -⟩ := id h
  rw [terminate_runs idx_le]
  exact react_completes (s := storeSentinel s) h

theorem raiseClass_completes (c : Classification) {s : State} (h : Bounded s) : ∃ t, raiseClass c s = .next t :=
  terminate_completes (s := classify c s) h

theorem append_completes (b : Byte) {s : State} (h : Bounded s) : ∃ t, append b s = .next t := by
  obtain ⟨-, idx_le, -⟩ := h
  rcases Nat.lt_or_eq_of_le idx_le with room | full
  · exact ⟨_, append_fits room⟩
  · exact ⟨_, append_overruns full⟩

/-- The engine's own rows complete, but for TX, whose index is `txPos`. -/
theorem exec_engine_completes {i : Instr} {s : State} (h : Bounded s) (engine : ¬ CalledByApplication i) (not_tx : i ≠ .tx) :
    ∃ t, exec i s = .next t := by
  cases i with
  | stx => exact ⟨_, exec_stx s⟩
  | etx => exact terminate_completes h
  | dle => exact ⟨_, exec_dle s⟩
  | syn =>
    by_cases data : s.inData = true
    · rw [exec_syn_of_data data]
      exact append_completes _ (s := { s with phase := .rdByte }) h
    · exact ⟨_, exec_syn_of_noData (by simpa using data)⟩
  | data b => exact append_completes b (s := { s with phase := .rdByte }) h
  | addrMatch b => exact ⟨_, exec_addrMatch b s⟩
  | addrForeign b => exact raiseClass_completes .ignore h
  | typeI => exact ⟨_, selects_letterI s⟩
  | typeP => exact ⟨_, selects_letterP s⟩
  | typeR => exact ⟨_, selects_letterR s⟩
  | typeT => exact ⟨_, selects_letterT s⟩
  | typeBad b => exact raiseClass_completes .error h
  | escLit b => exact append_completes b (s := { s with phase := .rdByte }) h
  | flEnd => exact ⟨_, exec_flEnd s⟩
  | flSkip b => exact ⟨_, exec_flSkip b s⟩
  | flEmpty => exact ⟨_, exec_flEmpty s⟩
  | tx => exact absurd rfl not_tx
  | invoke => exact absurd (.inl (.inl rfl)) engine
  | setAddress a => exact absurd (.inr (.inl ⟨a, rfl⟩)) engine
  | configure ic oc ii io => exact absurd (.inr (.inr ⟨ic, oc, ii, io, rfl⟩)) engine
  | frameI a p => exact absurd (.inl (startsInvocation_of_payloadFrame rfl)) engine
  | frameP a p => exact absurd (.inl (startsInvocation_of_payloadFrame rfl)) engine
  | frameR a p => exact absurd (.inl (startsInvocation_of_payloadFrame rfl)) engine
  | frameT a p => exact absurd (.inl (startsInvocation_of_payloadFrame rfl)) engine
  | frameBadtype a t => exact absurd (.inl (.inr (.inr (.inl ⟨a, t, rfl⟩)))) engine
  | frameForeign a => exact absurd (.inl (.inr (.inr (.inr ⟨a, rfl⟩)))) engine

theorem parseFrame_completes (c : Classification) (p : List Byte) {s : State} (h : Bounded s) :
    ∃ t, parseFrame c p s = .next t := by
  by_cases fits : p.length ≤ s.cfg.msgCap
  · obtain ⟨admissible, -, in_le, out_le⟩ := h
    rw [parseFrame_eq_exec_etx fits]
    exact terminate_completes (s := payloadRead c p s) ⟨admissible, fits, in_le, out_le⟩
  · exact ⟨_, parseFrame_overruns (Nat.lt_of_not_le fits)⟩

theorem parseHeader_completes (c : Classification) {s : State} (h : Bounded s) : ∃ t, parseHeader c s = .next t := by
  obtain ⟨admissible, -, in_le, out_le⟩ := h
  exact raiseClass_completes c (s := enterDataMode (loopEntry s)) ⟨admissible, Nat.zero_le _, in_le, out_le⟩

/-- Where `Invoke` is allowed, every row that starts an invocation completes. -/
theorem exec_starts_completes {i : Instr} {s : State} (h : Bounded s) (starts : StartsInvocation i)
    (allowed : callAllowed s .invoke = true) : ∃ t, exec i s = .next t := by
  have written := allowed
  simp only [callAllowed, Bool.and_eq_true, decide_eq_true_eq] at written
  obtain ⟨⟨idle, addressed⟩, counted⟩ := written
  have started := fun k => invocation_runs (s := s) k idle addressed counted
  rcases starts with rfl | ⟨a, p, rfl | rfl | rfl | rfl⟩ | ⟨a, t, rfl⟩ | ⟨a, rfl⟩
  · exact exec_allowed_call allowed
  · exact (parseFrame_completes .init p h).imp fun _ => (started _).trans
  · exact (parseFrame_completes .poll p h).imp fun _ => (started _).trans
  · exact (parseFrame_completes .read p h).imp fun _ => (started _).trans
  · exact (parseFrame_completes .transmit p h).imp fun _ => (started _).trans
  · exact (parseHeader_completes .error h).imp fun _ => (started _).trans
  · exact (parseHeader_completes .ignore h).imp fun _ => (started _).trans

/-- Where `Invoke` is not allowed, every row that starts an invocation is refused. -/
theorem exec_starts_refused {i : Instr} {s : State} (starts : StartsInvocation i)
    (not_allowed : callAllowed s .invoke = false) : ∃ r, exec i s = .refused r := by
  obtain ⟨k, runs, -⟩ := exec_of_startsInvocation starts
  by_cases idle : s.phase = .idle
  · have unwritten : s.addressWritten = false ∨ s.countsWritten = false := by
      rw [callAllowed, decide_eq_true idle, Bool.true_and] at not_allowed
      exact Bool.and_eq_false_iff.1 not_allowed
    exact ⟨_, (runs s).trans (invocation_unconfigured k idle unwritten)⟩
  · exact ⟨_, exec_called_busy idle (.inl starts)⟩

theorem exec_call_refused {c : Call} {s : State} (not_allowed : callAllowed s c = false) :
    ∃ r, exec (decodeCall c) s = .refused r := by
  cases c with
  | invoke => exact exec_starts_refused (.inl rfl) not_allowed
  | setAddress a => exact ⟨_, exec_setAddress_busy a (by simpa [callAllowed] using not_allowed)⟩
  | configure ic oc ii io =>
    by_cases idle : s.phase = .idle
    · refine ⟨_, exec_configure_too_large ii io idle ?_⟩
      simp only [callAllowed, idle, decide_true, Bool.true_and, Bool.and_eq_false_iff, decide_eq_false_iff_not] at not_allowed
      omega
    · exact ⟨_, exec_configure_busy ic oc ii io idle⟩

/-- On the engine's turn a step answers a next state. -/
theorem step_engine_completes {s u : State} (h : StateOk s) (turn : EngineTurn s u) : ∃ t, step s = .next t := by
  have fetched := fetch_engineTurn h.1 turn
  obtain ⟨a, rfl⟩ : ∃ a, u = { s with agenda := a } := ⟨_, engineTurn_eq turn⟩
  rcases engineFetch_cases { s with agenda := a } with
    ⟨-, e⟩ | ⟨-, -, e⟩ | ⟨-, -, b, r, i, -, decoded, e⟩ | ⟨-, -, e⟩ | ⟨sending, e⟩
  · exact ⟨_, step_of_silent (fetched.trans e)⟩
  · exact ⟨_, step_of_silent (fetched.trans e)⟩
  · obtain ⟨engine, not_tx⟩ := decode_byte_row decoded
    obtain ⟨t, run⟩ := exec_engine_completes (s := { s with agenda := a, rxq := r }) (bounded_of_stateOk h) engine not_tx
    exact ⟨t, (step_of_run (fetched.trans e)).trans run⟩
  · exact ⟨_, step_of_run (fetched.trans e)⟩
  · have fits : s.txPos ≤ s.cfg.msgCap := sending_fits h sending
    exact ⟨_, (step_of_run (fetched.trans e)).trans (exec_tx_of_le (s := { s with agenda := a }) fits)⟩

/-- From a state with the invariant a step answers a next state, or its move is a call the spec refuses and it is refused. -/
theorem step_answers {s : State} (h : StateOk s) :
    nextMoveAllowed s = true ∧ (∃ t, step s = .next t) ∨ nextMoveAllowed s = false ∧ ∃ r, step s = .refused r := by
  cases ha : s.agenda with
  | nil => exact .inl ⟨by simp [nextMoveAllowed, ha], step_engine_completes h (.inl ⟨ha, rfl⟩)⟩
  | cons m rest =>
    have fetched := fetch_move h.1 ha
    cases m with
    | engine => exact .inl ⟨by simp [nextMoveAllowed, ha], step_engine_completes h (.inr ⟨rest, ha, rfl⟩)⟩
    | deliver b => exact .inl ⟨by simp [nextMoveAllowed, ha], _, step_of_silent fetched⟩
    | reset => exact .inl ⟨by simp [nextMoveAllowed, ha], _, step_of_silent fetched⟩
    | call c =>
      have next : nextMoveAllowed s = callAllowed s c := by simp [nextMoveAllowed, ha]
      rw [next, step_call h.1 ha]
      cases allowed : callAllowed s c with
      | true => exact .inl ⟨rfl, exec_allowed_call (s := { s with agenda := rest }) (by cases c <;> exact allowed)⟩
      | false => exact .inr ⟨rfl, exec_call_refused (s := { s with agenda := rest }) (by cases c <;> exact allowed)⟩
    | invokeFrame =>
      have next : nextMoveAllowed s = callAllowed s .invoke := by simp [nextMoveAllowed, ha]
      obtain ⟨i, r, starts, run⟩ : ∃ i r, StartsInvocation i ∧ step s = exec i { s with agenda := rest, rxq := r } := by
        rcases fetchFrame_cases { s with agenda := rest } with ⟨i, r, decoded, e⟩ | ⟨-, e⟩
        · exact ⟨i, r, startsInvocation_of_decodeFrame decoded, step_of_run (fetched.trans e)⟩
        · exact ⟨.invoke, s.rxq, .inl rfl, step_of_run (fetched.trans e)⟩
      rw [next, run]
      cases allowed : callAllowed s .invoke with
      | true =>
        exact .inl ⟨rfl, exec_starts_completes (s := { s with agenda := rest, rxq := r }) (bounded_of_stateOk h) starts allowed⟩
      | false => exact .inr ⟨rfl, exec_starts_refused (s := { s with agenda := rest, rxq := r }) starts allowed⟩

/-- Settles O48: the answer is a next state or a refusal. -/
theorem noAccessFaults : Obligations.NoAccessFaults := by
  intro s f h fault
  rcases step_answers h with ⟨-, t, run⟩ | ⟨-, r, run⟩ <;> cases fault.symm.trans run

/-- Settles O49: of the two answers, the next state goes with an allowed move. -/
theorem onlyRefusedCallsStopTheMachine : Obligations.OnlyRefusedCallsStopTheMachine := by
  intro s h
  rcases step_answers h with ⟨allowed, answer⟩ | ⟨not_allowed, r, run⟩
  · exact ⟨fun _ => allowed, fun _ => answer⟩
  · constructor
    · rintro ⟨t, next⟩
      cases next.symm.trans run
    · exact fun allowed => by cases allowed.symm.trans not_allowed

/-! ## R39 as written (log 18) -/

/-- A move that is no `configure` keeps the bound of R39 on `txLen`. -/
theorem step_keeps_listed_length {s t : State} (h : StateOk s) (run : step s = .next t)
    (no_configure : ∀ ic oc ii io, s.agenda.head? ≠ some (.call (.configure ic oc ii io)))
    (bound : s.txLen ≤ 6 + 2 * s.inCount) : t.txLen ≤ 6 + 2 * t.inCount := by
  have ok : StateOk t := everyStepKeepsTheInvariant s t h run
  cases step_effect run with
  | waits => exact bound
  | delivers => exact bound
  | runs a r i _ fetched effect =>
    cases effect with
    | parse parsed =>
      cases parsed with
      | parses => exact bound
      | polls =>
        exact txLen_le_of_sending ok rfl
      | applies => exact bound
    | overrun => exact bound
    | sends => exact bound
    | setsAddress => exact bound
    | configures ic oc ii io => exact absurd (fetched.configuring ic oc ii io rfl) (no_configure ic oc ii io)
  | resets => exact Nat.zero_le _

/-- Settles O59: in TX the bound is a clause of the invariant; a `configure` leaves `txLen` and sets the count, and no other
move breaks the bound. -/
theorem onlyALoweredCountBreaksTheListedRanges : Obligations.OnlyALoweredCountBreaksTheListedRanges := by
  refine fun s h => ⟨fun sending => ?inTx, fun t listed run => ?step⟩
  case inTx =>
    exact (rangesAsListed_iff h).2 (txLen_le_of_sending h sending)
  case step =>
    have bound := (rangesAsListed_iff h).1 listed
    rw [rangesAsListed_iff (everyStepKeepsTheInvariant s t h run)]
    by_cases configured : ∃ ic oc ii io, s.agenda.head? = some (.call (.configure ic oc ii io))
    · obtain ⟨ic, oc, ii, io, head⟩ := configured
      obtain ⟨rest, ha⟩ : ∃ rest, s.agenda = .call (.configure ic oc ii io) :: rest :=
        ⟨_, (List.cons_head?_tail head).symm⟩
      rw [step_call h.1 ha] at run
      obtain ⟨-, -, rfl⟩ := exec_configure_next run
      refine ⟨fun kept ic' _ _ _ head' => ?_, fun fits => fits ic oc ii io head⟩
      cases head.symm.trans head'
      exact kept
    · simp only [not_exists] at configured
      exact ⟨fun _ ic oc ii io head => absurd head (configured ic oc ii io),
        fun _ => step_keeps_listed_length h run configured bound⟩

/-- A node in IDLE that has reported one input in a response of eight bytes and is about to be configured for none. -/
def oneInputReported : State :=
  { State.reset with
    addressWritten := true, countsWritten := true, inCount := 1, txLen := 8, txPos := 8, samplelog := [1]
    agenda := [.call (.configure 0 0 false false)] }

/-- Settles O58, by a node that has reported one input and is then configured for none. -/
theorem loweringTheCountLeavesALongerTxLen : Obligations.LoweringTheCountLeavesALongerTxLen :=
  ⟨oneInputReported, { oneInputReported with agenda := [], inCount := 0 }, 0, 0, false, false, [], by decide, by decide, rfl,
    by decide, (step_call (by decide) rfl).trans rfl, by decide, rfl, rfl, by decide⟩

end Sys2Proof
end

section
/-! The role tag (spec/00_scope.md R9, spec/41_dispatcher.md R133): writing another tag into the parameters commutes with every
decoding, every instruction and every step. -/

namespace Sys2Proof

open Sys2Proof.Machine

/-! ## Another tag -/

/-- The parameters with the role tag `g`. -/
def Config.retag (g : Byte) (c : Config) : Config := { c with roleTag := g }

/-- The state with the role tag `g` in its parameters. -/
def retag (g : Byte) (s : State) : State := { s with cfg := s.cfg.retag g }

/-- A result with the role tag `g` in the state it answers. -/
def retagResult (g : Byte) : Result → Result
  | .next s => .next (retag g s)
  | .fault r => .fault r
  | .refused r => .refused r

/-- What a fetch finds, with the role tag `g` in its state. -/
def retagFetched (g : Byte) : Fetched → Fetched
  | .run i s => .run i (retag g s)
  | .silent s => .silent (retag g s)
  | .refuse r => .refuse r

@[simp] theorem retagResult_next (g : Byte) (s : State) : retagResult g (.next s) = .next (retag g s) := rfl

theorem retagResult_ite (g : Byte) {p : Prop} [Decidable p] (x y : Result) :
    retagResult g (if p then x else y) = if p then retagResult g x else retagResult g y :=
  apply_ite (retagResult g) p x y

/-! ## Decoding -/

theorem escape_retag (g : Byte) (c : Config) (p : List Byte) : escape (c.retag g) p = escape c p := by
  rw [escape_eq_flatMap, escape_eq_flatMap]
  rfl

theorem unescape_retag (g : Byte) (c : Config) (esc : Bool) (bs : List Byte) :
    unescape (c.retag g) esc bs = unescape c esc bs := by
  induction bs generalizing esc with
  | nil => cases esc <;> rfl
  | cons b r ih =>
    cases esc with
    | true => rw [unescape, unescape, ih]
    | false =>
      rw [unescape, unescape, ih, ih]
      rfl

theorem decodeBody_retag (g : Byte) (c : Config) (k : List Byte → Instr) (bs : List Byte) :
    decodeBody (c.retag g) k bs = decodeBody c k bs := by
  rw [decodeBody, decodeBody, unescape_retag]
  rfl

theorem decodeFrame_retag (g : Byte) (c : Config) (n : Nat) (bs : List Byte) :
    decodeFrame ⟨c.retag g, n⟩ bs = decodeFrame ⟨c, n⟩ bs := by
  unfold decodeFrame
  simp only [decodeBody_retag]
  rfl

theorem decode_retag (g : Byte) (s : State) (c : Code) : decode (retag g s).env c = decode s.env c := by
  cases c with
  | byte p b => cases p <;> rfl
  | noByte p => rfl
  | call c => rfl
  | frame bs =>
    have same : decodeFrame (retag g s).env bs = decodeFrame s.env bs := decodeFrame_retag g s.cfg s.address bs
    simp only [decode, same]

/-! ## The reactions and the ends of a parse -/

theorem responseBytes_retag (g : Byte) (s : State) (bs : List Byte) : responseBytes (retag g s) bs = responseBytes s bs :=
  congrArg (fun q => frameHeader s.cfg (addrByte s.address) Config.letterR ++ q ++ [s.cfg.etx]) (escape_retag g s.cfg bs)

theorem build_retag (g : Byte) (s : State) : build (retag g s) = retagResult g (build s) := by
  have same : responseBytes (retag g s) (ioBytes (retag g s).inputBits (retag g s).inCount) =
      responseBytes s (ioBytes s.inputBits s.inCount) := responseBytes_retag g s _
  rw [build, build, retagResult_ite, same]
  rfl

theorem reactInit_retag (g : Byte) (s : State) : reactInit (retag g s) = retagResult g (reactInit s) := by
  rw [reactInit, reactInit, retagResult_ite, roleTagHook_eq, roleTagHook_eq]
  rfl

theorem reactPoll_retag (g : Byte) (s : State) : reactPoll (retag g s) = retagResult g (reactPoll s) := by
  rw [reactPoll, reactPoll, retagResult_ite]
  exact if_congr Iff.rfl (build_retag g (sampleInputs s)) rfl

theorem reactTransmit_retag (g : Byte) (s : State) : reactTransmit (retag g s) = retagResult g (reactTransmit s) := by
  rw [reactTransmit, reactTransmit, retagResult_ite, retagResult_ite]
  rfl

theorem react_retag (g : Byte) (s : State) : react (retag g s) = retagResult g (react s) := by
  have same : (retag g s).cls = s.cls := rfl
  rw [react, react, same]
  cases s.cls with
  | none => rfl
  | init => exact reactInit_retag g s
  | poll => exact reactPoll_retag g s
  | transmit => exact reactTransmit_retag g s
  | read => rfl
  | error => rfl
  | ignore => rfl

theorem terminate_retag (g : Byte) (s : State) : terminate (retag g s) = retagResult g (terminate s) := by
  rw [terminate, terminate, retagResult_ite]
  exact if_congr Iff.rfl (react_retag g (storeSentinel s)) rfl

theorem raiseClass_retag (g : Byte) (c : Classification) (s : State) :
    raiseClass c (retag g s) = retagResult g (raiseClass c s) :=
  terminate_retag g (classify c s)

theorem append_retag (g b : Byte) (s : State) : append b (retag g s) = retagResult g (append b s) := by
  rw [append, append, retagResult_ite]
  exact if_congr Iff.rfl rfl (raiseClass_retag g .error s)

/-! ## The instructions -/

theorem invocation_retag (g : Byte) {s : State} {k : State → Result} (hk : k (retag g s) = retagResult g (k s)) :
    invocation (retag g s) k = retagResult g (invocation s k) := by
  rw [invocation, invocation, retagResult_ite, retagResult_ite, hk]
  rfl

theorem parseFrame_retag (g : Byte) (c : Classification) (p : List Byte) (s : State) :
    parseFrame c p (retag g s) = retagResult g (parseFrame c p s) := by
  by_cases fits : p.length ≤ s.cfg.msgCap
  · rw [parseFrame_fits fits, parseFrame_fits (s := retag g s) fits]
    exact terminate_retag g (payloadRead c p s)
  · have long := Nat.lt_of_not_le fits
    have same : escape (retag g s).cfg (p.drop ((retag g s).cfg.msgCap + 1)) = escape s.cfg (p.drop (s.cfg.msgCap + 1)) :=
      escape_retag g s.cfg _
    rw [parseFrame_overruns long, parseFrame_overruns (s := retag g s) long, same]
    rfl

theorem parseHeader_retag (g : Byte) (c : Classification) (s : State) :
    parseHeader c (retag g s) = retagResult g (parseHeader c s) :=
  raiseClass_retag g c (enterDataMode (loopEntry s))

theorem execSyn_retag (g : Byte) (s : State) : exec .syn (retag g s) = retagResult g (exec .syn s) := by
  rw [show exec .syn s = execSyn s from rfl, show exec .syn (retag g s) = execSyn (retag g s) from rfl, execSyn, execSyn,
    retagResult_ite]
  exact if_congr Iff.rfl (append_retag g s.cfg.syn { s with phase := .rdByte }) rfl

theorem execTx_retag (g : Byte) (s : State) : exec .tx (retag g s) = retagResult g (exec .tx s) := by
  by_cases hpos : s.txPos ≤ s.cfg.msgCap
  · rw [exec_tx_of_le hpos, exec_tx_of_le (s := retag g s) hpos]
    rfl
  · have outside := Nat.lt_of_not_le hpos
    rw [exec_tx_of_gt outside, exec_tx_of_gt (s := retag g s) outside]
    rfl

theorem execInvoke_retag (g : Byte) (s : State) : exec .invoke (retag g s) = retagResult g (exec .invoke s) := by
  rw [show exec .invoke s = execInvoke s from rfl, show exec .invoke (retag g s) = execInvoke (retag g s) from rfl,
    execInvoke, execInvoke]
  refine invocation_retag g ?_
  dsimp only
  rw [retagResult_ite]
  rfl

theorem execSetAddress_retag (g a : Byte) (s : State) :
    exec (.setAddress a) (retag g s) = retagResult g (exec (.setAddress a) s) := by
  rw [show exec (.setAddress a) s = execSetAddress a s from rfl, execSetAddress, retagResult_ite]
  rfl

theorem execConfigure_retag (g : Byte) (ic oc : Nat) (ii io : Bool) (s : State) :
    exec (.configure ic oc ii io) (retag g s) = retagResult g (exec (.configure ic oc ii io) s) := by
  rw [show exec (.configure ic oc ii io) s = execConfigure ic oc ii io s from rfl, execConfigure, retagResult_ite,
    retagResult_ite]
  rfl

/-- No row's meaning depends on the tag. -/
theorem exec_retag (g : Byte) (i : Instr) (s : State) : exec i (retag g s) = retagResult g (exec i s) := by
  cases i with
  | stx => rfl
  | etx => exact terminate_retag g s
  | dle => rfl
  | syn => exact execSyn_retag g s
  | data b => exact append_retag g b { s with phase := .rdByte }
  | addrMatch b => rfl
  | addrForeign b => exact raiseClass_retag g .ignore s
  | typeI => rfl
  | typeP => rfl
  | typeR => rfl
  | typeT => rfl
  | typeBad b => exact raiseClass_retag g .error s
  | escLit b => exact append_retag g b { s with phase := .rdByte }
  | flEnd => rfl
  | flSkip b => rfl
  | flEmpty => rfl
  | tx => exact execTx_retag g s
  | invoke => exact execInvoke_retag g s
  | setAddress a => exact execSetAddress_retag g a s
  | configure ic oc ii io => exact execConfigure_retag g ic oc ii io s
  | frameI a p => exact invocation_retag g (parseFrame_retag g .init p s)
  | frameP a p => exact invocation_retag g (parseFrame_retag g .poll p s)
  | frameR a p => exact invocation_retag g (parseFrame_retag g .read p s)
  | frameT a p => exact invocation_retag g (parseFrame_retag g .transmit p s)
  | frameBadtype a t => exact invocation_retag g (parseHeader_retag g .error s)
  | frameForeign a => exact invocation_retag g (parseHeader_retag g .ignore s)

/-! ## A step and a run -/

theorem fetchCode_retag (g : Byte) (c : Code) (s : State) : fetchCode c (retag g s) = retagFetched g (fetchCode c s) := by
  rw [fetchCode, fetchCode, decode_retag]
  cases decode s.env c <;> rfl

theorem fetchByte_retag (g : Byte) (p : Phase) (s : State) : fetchByte p (retag g s) = retagFetched g (fetchByte p s) := by
  cases hr : s.rxq with
  | nil =>
    rw [fetchByte, fetchByte, rxRead_nil hr, rxRead_nil (s := retag g s) hr]
    rfl
  | cons b r =>
    rw [fetchByte, fetchByte, rxRead_cons hr, rxRead_cons (s := retag g s) hr]
    exact fetchCode_retag g (.byte p b) { s with rxq := r }

theorem fetchFlush_retag (g : Byte) (s : State) : fetchFlush (retag g s) = retagFetched g (fetchFlush s) := by
  have split : ∀ u : State, fetchFlush u =
      if rxAvail u = 0 then fetchCode (.noByte .flush) u else fetchByte .flush u := fun _ => rfl
  rw [split, split, apply_ite (retagFetched g)]
  exact if_congr Iff.rfl (fetchCode_retag g _ s) (fetchByte_retag g .flush s)

theorem engineFetch_retag (g : Byte) (s : State) : engineFetch (retag g s) = retagFetched g (engineFetch s) := by
  have same : (retag g s).phase = s.phase := rfl
  rw [engineFetch, engineFetch, same]
  cases s.phase with
  | idle => rfl
  | rdByte => exact fetchByte_retag g .rdByte s
  | rdAddr => exact fetchByte_retag g .rdAddr s
  | rdType => exact fetchByte_retag g .rdType s
  | rdEsc => exact fetchByte_retag g .rdEsc s
  | flush => exact fetchFlush_retag g s
  | tx => exact fetchCode_retag g (.noByte .tx) s

theorem fetchFrame_retag (g : Byte) (s : State) : fetchFrame (retag g s) = retagFetched g (fetchFrame s) := by
  have same : decodeFrame (retag g s).env (retag g s).rxq = decodeFrame s.env s.rxq :=
    decodeFrame_retag g s.cfg s.address s.rxq
  rcases fetchFrame_cases s with ⟨i, r, decoded, e⟩ | ⟨⟨x, decoded⟩, e⟩
  · rw [e, fetchFrame_of_frame (same.trans decoded)]
    rfl
  · rw [e, fetchFrame_of_noFrame (same.trans decoded)]
    rfl

theorem moveFetch_retag (g : Byte) (m : Move) (s : State) : moveFetch m (retag g s) = retagFetched g (moveFetch m s) := by
  cases m with
  | engine => exact engineFetch_retag g s
  | deliver b => rfl
  | call c => exact fetchCode_retag g (.call c) s
  | invokeFrame => exact fetchFrame_retag g s
  | reset => rfl

/-- The tag is no part of what R8 asks of the parameters, so a fetch finds the same. -/
theorem fetch_retag (g : Byte) {s : State} (hc : s.cfg.Admissible) : fetch (retag g s) = retagFetched g (fetch s) := by
  have hc' : (retag g s).cfg.Admissible := hc
  cases ha : s.agenda with
  | nil =>
    rw [fetch_engine hc ha, fetch_engine hc' ha]
    exact engineFetch_retag g s
  | cons m rest =>
    rw [fetch_move hc ha, fetch_move hc' ha]
    exact moveFetch_retag g m { s with agenda := rest }

theorem step_retag (g : Byte) {s t : State} (h : step s = .next t) : step (retag g s) = .next (retag g t) := by
  have found := fetch_retag g (stepped_of_step h).1
  cases hf : fetch s with
  | run i u =>
    rw [hf] at found
    rw [step_of_run hf] at h
    rw [step_of_run found, exec_retag, h, retagResult_next]
  | silent u =>
    rw [hf] at found
    cases (step_of_silent hf).symm.trans h
    exact step_of_silent found
  | refuse r => simp [step, hf] at h

/-- Settles O56, by induction on the number of steps: each commutes with writing the tag. -/
theorem roleTagIsNotObservable : Obligations.RoleTagIsNotObservable := by
  intro s t g k run
  change steps k (retag g s) = .next (retag g t)
  induction k generalizing s with
  | zero =>
    cases run
    rfl
  | succ k ih =>
    obtain ⟨u, first, rest⟩ := steps_succ_inv run
    rw [steps_succ_of_next k (step_retag g first)]
    exact ih u rest

end Sys2Proof
end
